-- ==== Sys2Proof/Word.lean ====
section
/-! DEFINITION. The plain word types of the block (00_scope.md R10). -/

namespace Sys2Proof

/-- A pattern or digit operand, and a display memory location: 8 bits (R10, R24). -/
abbrev Byte := BitVec 8

/-- A digit position: 2 bits, so every value names a location of the display memory (R54). -/
abbrev Position := BitVec 2

/-- The host request word `{op[2:0], pos[1:0], arg[7:0]}` (R70). -/
abbrev Request := BitVec 13

/-- The transmit value of `Tx`, `SR_WIDTH = 16` bits (R5, R140). -/
abbrev TxValue := BitVec 16

/-- The 9-bit datasheet code of a command, in the chip's most-significant-first order (00_scope.md,
glossary). -/
abbrev DatasheetCode := BitVec 9

end Sys2Proof
end

