-- ==== Sys2Proof/Syntax.lean ====
section
/-! DEFINITION. The syntax: one constructor of `Instr` per row of spec/opcode_table.json, the two
encodings of 30_encoding.md as data, and the assembler's source lines (R85, R86). -/

namespace Sys2Proof

/-- The rows of the opcode table: the host requests of R71, the reserved host opcodes of R73, the wire
command words of R163, and the two words of a refresh (R78, R79).
Fields an opcode does not use have no effect (R72), so they are no operands. -/
inductive Instr
  /-- `INIT` (R242). -/
  | init
  /-- `SETMEM p, v` (R201). -/
  | setmem (p : Position) (v : Byte)
  /-- `WRDIG p, d` (R226). -/
  | wrdig (p : Position) (d : Byte)
  /-- `WRDIGS d` (R227). -/
  | wrdigs (d : Byte)
  /-- `REFRESH` (R203). -/
  | refresh
  /-- The reserved opcode 000 (R73). -/
  | reserved000
  /-- The reserved opcode 110 (R73). -/
  | reserved110
  /-- The reserved opcode 111 (R73). -/
  | reserved111
  /-- `NORMAL_MODE` (R164). -/
  | normalMode
  /-- `TEST_MODE` (R165). -/
  | testMode
  /-- `OSC_ON` (R166). -/
  | oscOn
  /-- `OSC_RC` (R167). -/
  | oscRc
  /-- `OSC_XTAL` (R168). -/
  | oscXtal
  /-- `OSC_EXT` (R169). -/
  | oscExt
  /-- `BIAS_ON` (R170). -/
  | biasOn
  /-- `BIAS_OFF` (R171). -/
  | biasOff
  /-- `WDT_CLEAR` (R174). -/
  | wdtClear
  /-- `BIAS_COM s, c` (R172): commons-count selector `s`, bias-ratio selector `c`. -/
  | biasCom (s : BitVec 2) (c : BitVec 1)
  /-- `WDT_TIMEBASE t` (R173). -/
  | wdtTimebase (t : BitVec 3)
  /-- `WRITE_ADDR0` (R204). -/
  | writeAddr0
  /-- `DATA16 w` (R79). -/
  | data16 (w : BitVec 16)
  deriving DecidableEq, Repr

/-- A wire word with its bit count (R75): 9, 12 or 16 bits. -/
inductive WireWord
  | wire9 (w : BitVec 9)
  | wire12 (w : BitVec 12)
  | wire16 (w : BitVec 16)
  deriving DecidableEq, Repr

/-- An encoded row: a word of one of the opcode table's four formats. -/
inductive Encoded
  | host13 (w : Request)
  | wire (w : WireWord)
  deriving DecidableEq, Repr

/-- A line of assembler source: the requests of R85 and the pseudo-requests of R86, operands as
written. -/
inductive AsmLine
  | init
  | setmem (p v : Nat)
  | wrdig (p d : Nat)
  | wrdigs (d : Nat)
  | refresh
  /-- `CLEAR` -/
  | clear
  /-- `SHOW d` -/
  | showDigit (d : Nat)
  /-- `SHOW4 d0, d1, d2, d3` -/
  | showFour (d0 d1 d2 d3 : Nat)
  deriving DecidableEq, Repr

end Sys2Proof
end

