-- ==== Sys2Proof/Config.lean ====
section
/-! DEFINITION. The build-time parameters of 00_scope.md R5 and 10_state.md R36 as plain data, and the
one value the spec leaves open for the default build. -/

namespace Sys2Proof

/-- `ORIENTATION`: normal or rotated by 180 degrees (R5, R224). -/
inductive Orientation
  | normal
  | rotated180
  deriving DecidableEq, Repr

/-- The segments a to g and the decimal point (00_scope.md, glossary). -/
inductive Segment
  | a | b | c | d | e | f | g | dp
  deriving DecidableEq, Repr

/-- The lit segments of a digit, an entry of `DIGIT_SEGS`.
It has no decimal point: a glyph never lights it (R222). -/
structure SegmentSet where
  a : Bool
  b : Bool
  c : Bool
  d : Bool
  e : Bool
  f : Bool
  g : Bool
  deriving DecidableEq, Repr

/-- `SEG_BIT`: the bit position of each segment in a pattern byte (R5). -/
structure SegBits where
  a : Fin 8
  b : Fin 8
  c : Fin 8
  d : Fin 8
  e : Fin 8
  f : Fin 8
  g : Fin 8
  dp : Fin 8
  deriving DecidableEq, Repr

/-- `CMD_CODE`: the datasheet code of each command (R5, R163).
The two parameterized codes are a base word and the datasheet bit at which each parameter bit is
placed (R172, R173, 90_conflicts.md C3). -/
structure CommandCodes where
  normalMode : DatasheetCode
  testMode : DatasheetCode
  oscOn : DatasheetCode
  oscRc : DatasheetCode
  oscXtal : DatasheetCode
  oscExt : DatasheetCode
  biasOn : DatasheetCode
  biasOff : DatasheetCode
  wdtClear : DatasheetCode
  biasComBase : DatasheetCode
  biasComS1 : Fin 9
  biasComS0 : Fin 9
  biasComC : Fin 9
  wdtTimebaseBase : DatasheetCode
  wdtTimebaseT2 : Fin 9
  wdtTimebaseT1 : Fin 9
  wdtTimebaseT0 : Fin 9
  deriving DecidableEq, Repr

/-- A configuration command of the chip (R163), with its operands. -/
inductive Command
  | normalMode
  | testMode
  | oscOn
  | oscRc
  | oscXtal
  | oscExt
  | biasOn
  | biasOff
  | biasCom (s : BitVec 2) (c : BitVec 1)
  | wdtTimebase (t : BitVec 3)
  | wdtClear
  deriving DecidableEq, Repr

/-- `WORD_ORDER`: which byte of a pair is the low half of a refresh word (R5, R52, D16). -/
inductive WordOrder
  | little
  | big
  deriving DecidableEq, Repr

/-- The build-time parameters of R5 and R36.
`MEM_BYTES` and `SR_WIDTH` are fixed (R5).
`DELAY_CYCLES` is written as its excess over the design delay of R295, so that a build below the
design delay, which is outside the spec (I3), cannot be written down. -/
structure Config where
  /-- `F_CLK`, in hertz: "a positive number" (R5, log 6). -/
  fClk : ℕ+
  /-- `DELAY_CYCLES - ceil(125e-6 * F_CLK)`. -/
  delayMargin : Nat
  orientation : Orientation
  segBit : SegBits
  digitSegs : Vector SegmentSet 10
  /-- `P_CMD` (R161). -/
  pCmd : BitVec 3
  cmdCode : CommandCodes
  /-- `WR0` (R204). -/
  wr0 : BitVec 9
  /-- `INIT_SEQ` (R241): six commands, in their fixed order (R244). -/
  initSeq : Vector Command 6
  wordOrder : WordOrder
  deriving DecidableEq, Repr

/-- The clock frequency of the default build: OPEN in the spec (R5, D2), so a value nothing can
evaluate (log 6). -/
opaque Config.openClockHz : ℕ+

end Sys2Proof
end

