-- ==== Sys2Proof/WellFormed.lean ====
section
/-! DEFINITION. The well-formedness checks: the assembler's operand ranges (R85) and the wiring of the
pattern byte. The operands of `Instr` have the widths of their fields (R74, R83), so every `Instr` is
well formed by its type. -/

namespace Sys2Proof

/-- A position operand: 0 to 3 (R85). -/
def AsmLine.positionOk (p : Nat) : Bool := p < 4

/-- A pattern or digit operand: 0 to 255 (R85). -/
def AsmLine.byteOk (v : Nat) : Bool := v < 256

/-- "`p` must be 0 to 3 and `v`, `d` 0 to 255, else the assembler refuses the line" (R85). -/
def AsmLine.wf : AsmLine → Bool
  | .init => true
  | .setmem p v => AsmLine.positionOk p && AsmLine.byteOk v
  | .wrdig p d => AsmLine.positionOk p && AsmLine.byteOk d
  | .wrdigs d => AsmLine.byteOk d
  | .refresh => true
  | .clear => true
  | .showDigit d => AsmLine.byteOk d
  | .showFour d0 d1 d2 d3 =>
    AsmLine.byteOk d0 && AsmLine.byteOk d1 && AsmLine.byteOk d2 && AsmLine.byteOk d3

/-- The bit positions of `SEG_BIT`, in the order a to g, dp. -/
def SegBits.positions (b : SegBits) : List (Fin 8) := [b.a, b.b, b.c, b.d, b.e, b.f, b.g, b.dp]

/-- A wiring sends the eight segments to eight different bits of the pattern: "one bit per segment"
(00_scope.md, glossary). -/
def SegBits.wf (b : SegBits) : Bool := decide b.positions.Nodup

/-- A build whose pattern byte is wired one bit per segment. -/
def Config.wf (c : Config) : Bool := c.segBit.wf

end Sys2Proof
end

