-- ==== Sys2Proof/Decode.lean ====
section
/-! DEFINITION. The decoder of both encodings of 30_encoding.md, total and rejecting by name; the
encoder; the opcode table's masks; and the assembler of R85 and R86. -/

namespace Sys2Proof

/-! ## The host request word (R70) -/

/-- The `op` field, bits 12:10 (R70). -/
def Request.op (r : Request) : BitVec 3 := r.extractLsb' 10 3

/-- The `pos` field, bits 9:8 (R70). -/
def Request.pos (r : Request) : Position := r.extractLsb' 8 2

/-- The `arg` field, bits 7:0 (R70). -/
def Request.arg (r : Request) : Byte := r.extractLsb' 0 8

/-- `REQ = {op, pos, arg}` (R70). -/
def Request.ofFields (op : BitVec 3) (pos : Position) (arg : Byte) : Request := op ++ pos ++ arg

/-- The opcode map of R71 and R73: every request word decodes. -/
def decodeRequest (r : Request) : Instr :=
  if r.op = 0b001 then .init
  else if r.op = 0b010 then .setmem r.pos r.arg
  else if r.op = 0b011 then .wrdig r.pos r.arg
  else if r.op = 0b100 then .wrdigs r.arg
  else if r.op = 0b101 then .refresh
  else if r.op = 0b110 then .reserved110
  else if r.op = 0b111 then .reserved111
  else .reserved000

/-! ## Wire words (R75) -/

/-- Why a wire word is no row of the opcode table (R75, R78, R163). -/
inductive Reject
  /-- A 12-bit word that is no command of R163. -/
  | notACommandWord (w : BitVec 12)
  /-- A 9-bit word other than `WR0`: "Only address 0 is ever sent" (R78). -/
  | notWriteAddr0 (w : BitVec 9)
  deriving DecidableEq, Repr

/-- The commands without operands, by their words in the table of R163. -/
def decodeFixedCommand (w : BitVec 12) : Option Instr :=
  if w = 0x639 then some .normalMode
  else if w = 0x039 then some .testMode
  else if w = 0x401 then some .oscOn
  else if w = 0x0C1 then some .oscRc
  else if w = 0x141 then some .oscXtal
  else if w = 0x1C1 then some .oscExt
  else if w = 0x601 then some .biasOn
  else if w = 0x201 then some .biasOff
  else if w = 0x381 then some .wdtClear
  else none

/-- The commands with operands: the fixed bits of the table's masks, the operand bits at the places
of R81. -/
def decodeOperandCommand (w : BitVec 12) : Option Instr :=
  if w &&& 0xA7F = 0x021 then
    some (.biasCom (w.extractLsb' 7 1 ++ w.extractLsb' 8 1) (w.extractLsb' 10 1))
  else if w &&& 0x8FF = 0x029 then
    some (.wdtTimebase (w.extractLsb' 8 1 ++ w.extractLsb' 9 1 ++ w.extractLsb' 10 1))
  else none

/-- The command of a 12-bit command word (R163). -/
def decodeWire12 (w : BitVec 12) : Option Instr := decodeFixedCommand w <|> decodeOperandCommand w

/-- The row of a wire word of known length: the block knows it from the word's place in a bus program,
a receiver from the transaction's first three bits (R80, Machine/Receiver.lean). -/
def decodeWire : WireWord → Except Reject Instr
  | .wire9 w => if w = 0x005 then .ok .writeAddr0 else .error (.notWriteAddr0 w)
  | .wire12 w =>
    match decodeWire12 w with
    | some i => .ok i
    | none => .error (.notACommandWord w)
  | .wire16 w => .ok (.data16 w)

/-- The decoder, over both encodings. -/
def decode : Encoded → Except Reject Instr
  | .host13 r => .ok (decodeRequest r)
  | .wire w => decodeWire w

/-! ## The encoder -/

/-- The word of an instruction: the host words as the assembler writes them (R85), unused fields zero
(R72); the wire words as R163, R172, R173, R78 and R79 give them. -/
def encode : Instr → Encoded
  | .init => .host13 (Request.ofFields 0b001 0 0)
  | .setmem p v => .host13 (Request.ofFields 0b010 p v)
  | .wrdig p d => .host13 (Request.ofFields 0b011 p d)
  | .wrdigs d => .host13 (Request.ofFields 0b100 0 d)
  | .refresh => .host13 (Request.ofFields 0b101 0 0)
  | .reserved000 => .host13 (Request.ofFields 0b000 0 0)
  | .reserved110 => .host13 (Request.ofFields 0b110 0 0)
  | .reserved111 => .host13 (Request.ofFields 0b111 0 0)
  | .normalMode => .wire (.wire12 0x639)
  | .testMode => .wire (.wire12 0x039)
  | .oscOn => .wire (.wire12 0x401)
  | .oscRc => .wire (.wire12 0x0C1)
  | .oscXtal => .wire (.wire12 0x141)
  | .oscExt => .wire (.wire12 0x1C1)
  | .biasOn => .wire (.wire12 0x601)
  | .biasOff => .wire (.wire12 0x201)
  | .wdtClear => .wire (.wire12 0x381)
  | .biasCom s c =>
    .wire (.wire12 (0x021#12 ||| (s.extractLsb' 1 1).setWidth 12 <<< 7
      ||| (s.extractLsb' 0 1).setWidth 12 <<< 8 ||| c.setWidth 12 <<< 10))
  | .wdtTimebase t =>
    .wire (.wire12 (0x029#12 ||| (t.extractLsb' 0 1).setWidth 12 <<< 10
      ||| (t.extractLsb' 1 1).setWidth 12 <<< 9 ||| (t.extractLsb' 2 1).setWidth 12 <<< 8))
  | .writeAddr0 => .wire (.wire9 0x005)
  | .data16 w => .wire (.wire16 w)

/-! ## The opcode table -/

/-- The mnemonic of spec/opcode_table.json. -/
def Instr.mnemonic : Instr → String
  | .init => "INIT"
  | .setmem _ _ => "SETMEM"
  | .wrdig _ _ => "WRDIG"
  | .wrdigs _ => "WRDIGS"
  | .refresh => "REFRESH"
  | .reserved000 => "reserved_op_000"
  | .reserved110 => "reserved_op_110"
  | .reserved111 => "reserved_op_111"
  | .normalMode => "NORMAL_MODE"
  | .testMode => "TEST_MODE"
  | .oscOn => "OSC_ON"
  | .oscRc => "OSC_RC"
  | .oscXtal => "OSC_XTAL"
  | .oscExt => "OSC_EXT"
  | .biasOn => "BIAS_ON"
  | .biasOff => "BIAS_OFF"
  | .wdtClear => "WDT_CLEAR"
  | .biasCom _ _ => "BIAS_COM_s__c"
  | .wdtTimebase _ => "WDT_TIMEBASE_t"
  | .writeAddr0 => "WRITE_ADDR0"
  | .data16 _ => "DATA16_w"

/-- A row's `format`, `match` and `mask` in spec/opcode_table.json: the width in bits, whether the
word is a host request, and the fixed bits. -/
structure TableRow where
  mnemonic : String
  host : Bool
  width : Nat
  fixed : Nat
  mask : Nat
  deriving DecidableEq, Repr

/-- The host rows of spec/opcode_table.json. -/
def hostRows : List TableRow :=
  [ ⟨"INIT", true, 13, 0x0400, 0x1C00⟩, ⟨"SETMEM", true, 13, 0x0800, 0x1C00⟩,
    ⟨"WRDIG", true, 13, 0x0C00, 0x1C00⟩, ⟨"WRDIGS", true, 13, 0x1000, 0x1C00⟩,
    ⟨"REFRESH", true, 13, 0x1400, 0x1C00⟩, ⟨"reserved_op_000", true, 13, 0x0000, 0x1C00⟩,
    ⟨"reserved_op_110", true, 13, 0x1800, 0x1C00⟩, ⟨"reserved_op_111", true, 13, 0x1C00, 0x1C00⟩ ]

/-- The wire rows of spec/opcode_table.json. -/
def wireRows : List TableRow :=
  [ ⟨"NORMAL_MODE", false, 12, 0x639, 0xFFF⟩, ⟨"TEST_MODE", false, 12, 0x039, 0xFFF⟩,
    ⟨"OSC_ON", false, 12, 0x401, 0xFFF⟩, ⟨"OSC_RC", false, 12, 0x0C1, 0xFFF⟩,
    ⟨"OSC_XTAL", false, 12, 0x141, 0xFFF⟩, ⟨"OSC_EXT", false, 12, 0x1C1, 0xFFF⟩,
    ⟨"BIAS_ON", false, 12, 0x601, 0xFFF⟩, ⟨"BIAS_OFF", false, 12, 0x201, 0xFFF⟩,
    ⟨"WDT_CLEAR", false, 12, 0x381, 0xFFF⟩, ⟨"BIAS_COM_s__c", false, 12, 0x021, 0xA7F⟩,
    ⟨"WDT_TIMEBASE_t", false, 12, 0x029, 0x8FF⟩, ⟨"WRITE_ADDR0", false, 9, 0x005, 0x1FF⟩,
    ⟨"DATA16_w", false, 16, 0x0000, 0x0000⟩ ]

/-- Whether the word is a host request. -/
def Encoded.host : Encoded → Bool
  | .host13 _ => true
  | .wire _ => false

/-- The word's width in bits. -/
def Encoded.width : Encoded → Nat
  | .host13 _ => 13
  | .wire (.wire9 _) => 9
  | .wire (.wire12 _) => 12
  | .wire (.wire16 _) => 16

/-- The word as a number, bit 0 least significant. -/
def Encoded.toNat : Encoded → Nat
  | .host13 w => w.toNat
  | .wire (.wire9 w) => w.toNat
  | .wire (.wire12 w) => w.toNat
  | .wire (.wire16 w) => w.toNat

/-- A word of the row's format with the row's fixed bits. -/
def TableRow.matchesWord (t : TableRow) (e : Encoded) : Bool :=
  t.host == e.host && t.width == e.width && (e.toNat &&& t.mask) == t.fixed

/-- The mnemonics of the rows a word matches. -/
def matchingRows (e : Encoded) : List String :=
  ((hostRows ++ wireRows).filter (·.matchesWord e)).map (·.mnemonic)

/-! ## Words given without their format -/

/-- The word that `nbits` bits `w` of the opcode table stand for.
With the bit count of one format it is that format's word; two bytes are read as the row with the
most fixed bits that they match: a command or write-address word, else a host request, else a data
word (log 10). -/
def tableWord (nbits w : Nat) : Option Encoded :=
  if nbits = 9 then
    if w < 2 ^ 9 then some (.wire (.wire9 (BitVec.ofNat 9 w))) else none
  else if nbits = 12 then
    if w < 2 ^ 12 then some (.wire (.wire12 (BitVec.ofNat 12 w))) else none
  else if nbits = 13 then
    if w < 2 ^ 13 then some (.host13 (BitVec.ofNat 13 w)) else none
  else if nbits = 16 then
    if w = 0x005 then some (.wire (.wire9 0x005))
    else if w < 2 ^ 12 ∧ (decodeWire12 (BitVec.ofNat 12 w)).isSome then
      some (.wire (.wire12 (BitVec.ofNat 12 w)))
    else if w < 2 ^ 13 then some (.host13 (BitVec.ofNat 13 w))
    else if w < 2 ^ 16 then some (.wire (.wire16 (BitVec.ofNat 16 w)))
    else none
  else none

/-- The instruction of an opcode-table word. -/
def decodeTableWord (nbits w : Nat) : Option Instr :=
  match tableWord nbits w with
  | none => none
  | some e =>
    match decode e with
    | .ok i => some i
    | .error _ => none

/-! ## The assembler (R85, R86) -/

/-- A position operand of the assembler. -/
def asmPosition (p : Nat) : Position := BitVec.ofNat 2 p

/-- A pattern or digit operand of the assembler. -/
def asmByte (v : Nat) : Byte := BitVec.ofNat 8 v

/-- The requests of a line: itself, or the expansion of R86. -/
def AsmLine.expand : AsmLine → List Instr
  | .init => [.init]
  | .setmem p v => [.setmem (asmPosition p) (asmByte v)]
  | .wrdig p d => [.wrdig (asmPosition p) (asmByte d)]
  | .wrdigs d => [.wrdigs (asmByte d)]
  | .refresh => [.refresh]
  | .clear => [.setmem 0 0, .setmem 1 0, .setmem 2 0, .setmem 3 0]
  | .showDigit d => [.wrdigs (asmByte d), .refresh]
  | .showFour d0 d1 d2 d3 =>
    [.wrdig 0 (asmByte d0), .wrdig 1 (asmByte d1), .wrdig 2 (asmByte d2), .wrdig 3 (asmByte d3),
      .refresh]

/-- The request word of a host request (R85); a wire word has none: "the block has no request that
sends one by name" (R87). -/
def requestWord (i : Instr) : Option Request :=
  match encode i with
  | .host13 r => some r
  | .wire _ => none

/-- The words of a line, refused when an operand is out of range (R85). -/
def AsmLine.assemble (l : AsmLine) : Option (List Request) :=
  if l.wf then l.expand.mapM requestWord else none

/-- The words of a source text of several lines.
R85 says that the assembler refuses a line; that a text with such a line gives no words at all is the
model's choice (DESIGN CHOICE, log 22). -/
def assembleLines (ls : List AsmLine) : Option (List Request) :=
  (ls.mapM AsmLine.assemble).map List.flatten

end Sys2Proof
end

