-- ==== Sys2Proof/Machine/Defaults.lean ====
section
/-! DEFINITION. The values of the default build: the tables of R163, R172, R173, R161, R204, R222 and
the defaults of 00_scope.md R5. The spec takes the chip's numbers and the digit shapes from general
knowledge of the HT1621 and of 7-segment displays (log 8, 9). -/

namespace Sys2Proof.Machine

/-- `CMD_CODE`: the column `C` of R163. -/
def defaultCodes : CommandCodes where
  normalMode := 0x1C6
  testMode := 0x1C0
  oscOn := 0x002
  oscRc := 0x030
  oscXtal := 0x028
  oscExt := 0x038
  biasOn := 0x006
  biasOff := 0x004
  wdtClear := 0x01C
  biasComBase := 0x040
  biasComS1 := 4
  biasComS0 := 3
  biasComC := 1
  wdtTimebaseBase := 0x140
  wdtTimebaseT2 := 3
  wdtTimebaseT1 := 2
  wdtTimebaseT0 := 1

/-- `SEG_BIT`: a = 0, ..., g = 6, dp = 7 (R5). -/
def defaultSegBits : SegBits where
  a := 0
  b := 1
  c := 2
  d := 3
  e := 4
  f := 5
  g := 6
  dp := 7

/-- `DIGIT_SEGS` (R222). -/
def defaultDigitSegs : Vector SegmentSet 10 :=
  --   a      b      c      d      e      f      g
  #v[⟨true,  true,  true,  true,  true,  true,  false⟩,
     ⟨false, true,  true,  false, false, false, false⟩,
     ⟨true,  true,  false, true,  true,  false, true⟩,
     ⟨true,  true,  true,  true,  false, false, true⟩,
     ⟨false, true,  true,  false, false, true,  true⟩,
     ⟨true,  false, true,  true,  false, true,  true⟩,
     ⟨true,  false, true,  true,  true,  true,  true⟩,
     ⟨true,  true,  true,  false, false, false, false⟩,
     ⟨true,  true,  true,  true,  true,  true,  true⟩,
     ⟨true,  true,  true,  true,  false, true,  true⟩]

/-- `INIT_SEQ` (R241). -/
def defaultInitSeq : Vector Command 6 :=
  #v[.normalMode, .oscOn, .oscRc, .biasOn, .biasCom 2 0, .wdtClear]

/-- The build with every parameter at its default (R5), at the clock frequency `fClk`. -/
def defaultConfig (fClk : ℕ+) : Config where
  fClk := fClk
  delayMargin := 0
  orientation := .normal
  segBit := defaultSegBits
  digitSegs := defaultDigitSegs
  pCmd := 0b001
  cmdCode := defaultCodes
  wr0 := 0x005
  initSeq := defaultInitSeq
  wordOrder := .little

end Sys2Proof.Machine
end

