-- ==== Sys2Proof/Machine/State.lean ====
section
/-! DEFINITION. The state of 10_state.md R20, the inputs the block samples, and the reset values of
R35. -/

namespace Sys2Proof.Machine

/-- The pin registers (R23), `true` for level 1. -/
structure Pins where
  /-- `cs_n`: 0 while a transaction is open. -/
  csN : Bool
  wr : Bool
  data : Bool
  deriving DecidableEq, Repr

/-- A pin update: "a partial assignment to `cs_n`, `wr`, `data`" (R27). -/
structure PinUpdate where
  csN : Option Bool
  wr : Option Bool
  data : Option Bool
  deriving DecidableEq, Repr

/-- A micro-op (R27): a pin update, or a delay with `k` cycles still to run. -/
inductive MicroOp
  | act (u : PinUpdate)
  | wait (k : Nat)
  deriving DecidableEq, Repr

/-- The initialization state (R25). -/
inductive IState
  | linesConfigured
  | chipConfigured
  deriving DecidableEq, Repr

/-- The controller state (R26). -/
inductive Ctl
  | idle
  | busy
  | faulted
  deriving DecidableEq, Repr

/-- `cur_op`, the request the running program was built for (R27). -/
inductive CurOp
  | none
  | init
  | refresh
  deriving DecidableEq, Repr

/-- The fault causes of R261; the codes 4 to 7 are never produced. -/
inductive FaultCause
  | none
  | illegalOp
  | notInitialized
  | reinit
  deriving DecidableEq, Repr

/-- The input ports sampled at one edge (R22, R37). -/
structure Ports where
  rst : Bool
  reqValid : Bool
  reqOp : BitVec 3
  reqPos : Position
  reqArg : Byte
  deriving DecidableEq, Repr

/-- What stands at the block's inputs for the coming edges (log 1, 2, 3). -/
inductive Stimulus
  /-- The ports at one edge, whatever the block is doing. -/
  | edge (p : Ports)
  /-- The host presents a request at every edge until it is accepted (R101). -/
  | present (r : Request)
  /-- The model's own: a wire word of the opcode table handed to the sequencer when the block is
  `IDLE`. No request of a host does this (R178). -/
  | wire (w : WireWord)
  deriving DecidableEq, Repr

/-- The state: the record of R20, then the model's own `inputs` and the build's parameters. -/
structure State where
  pins : Pins
  /-- The display memory (R24, R50): cells of the addresses 0 to 3, an unlisted one reading as 0. -/
  mem : List Host.Cell
  istate : IState
  ctl : Ctl
  curOp : CurOp
  /-- The micro-ops still to run (R27). -/
  prog : List MicroOp
  fault : Bool
  /-- `fault_cause` (R29). -/
  cause : FaultCause
  /-- The inputs of the coming edges; past their end, `rst = 0` and `req_valid = 0` (log 1). -/
  inputs : List Stimulus
  /-- The build-time parameters (R36); no step changes them. -/
  cfg : Config
  deriving DecidableEq, Repr

/-- Why the machine stops. No instruction of the table does. -/
inductive Fault
  /-- Raised by a step in `BUSY` with an empty program, for which R104 gives no case and which R27 and
  R103 rule out. Safe: the model stops where the spec gives no effect (log 12). -/
  | busyWithoutProgram
  deriving DecidableEq, Repr

/-- What the model gives no meaning. -/
inductive Refusal
  /-- An instruction that has no meaning yet, by its mnemonic; no arm answers it. Safe. -/
  | notModelled (mnemonic : String)
  /-- Raised by a step that is handed a wire word which is no row of the opcode table; the block never
  sends one (R75, R78, R163). Safe (log 13). -/
  | undecodableWireWord (r : Reject)
  deriving DecidableEq, Repr

/-- The state after a reset edge of the build `cfg`, with `inputs` still to come (R35). -/
def State.resetOf (cfg : Config) (inputs : List Stimulus) : State where
  pins := ⟨true, true, false⟩
  mem := []
  istate := .linesConfigured
  ctl := .idle
  curOp := .none
  prog := []
  fault := false
  cause := .none
  inputs := inputs
  cfg := cfg

/-- The machine right after reset (R35, R293): the default build, its clock frequency left open
(log 6), with no input to come. -/
def State.reset : State := State.resetOf (defaultConfig Config.openClockHz) []

end Sys2Proof.Machine
end

