-- ==== Sys2Proof/Machine/Ops.lean ====
section
/-! DEFINITION. The named operations over the state: display memory, pins, the sequencer of
40_controller.md, the fault entry of R262 and the reset edge of R290. -/

namespace Sys2Proof.Machine

/-! ## Display memory (R24, R50)

A list of cells in one canonical form: addresses strictly rising, all below `MEM_BYTES`, and no cell
holding 0, which is what an unlisted address reads as (R35). -/

/-- `MEM_BYTES` (R5). -/
def memBytes : Nat := 4

/-- The byte at an address, `MemRead(p, 1)` (R9). -/
def Memory.read : List Host.Cell → Nat → Byte
  | [], _ => 0
  | (b, v) :: m, a => if b = a then v else Memory.read m a

/-- The memory without its cell at an address. -/
def Memory.erase : List Host.Cell → Nat → List Host.Cell
  | [], _ => []
  | (b, v) :: m, a => if b = a then Memory.erase m a else (b, v) :: Memory.erase m a

/-- A cell put before the first cell of a higher address. -/
def Memory.insert (m : List Host.Cell) (a : Nat) (v : Byte) : List Host.Cell :=
  match m with
  | [] => [(a, v)]
  | (b, w) :: m => if a < b then (a, v) :: (b, w) :: m else (b, w) :: Memory.insert m a v

/-- The memory with a byte written, `MemWrite(p, 1, v)` (R9). -/
def Memory.write (m : List Host.Cell) (a : Nat) (v : Byte) : List Host.Cell :=
  if v = 0 then Memory.erase m a else Memory.insert (Memory.erase m a) a v

/-- The addresses rise strictly from `lo` and stay below `MEM_BYTES`, and no cell holds 0. -/
def Memory.wfFrom (lo : Nat) : List Host.Cell → Bool
  | [] => true
  | (a, v) :: m => decide (lo ≤ a) && decide (a < memBytes) && v != 0 && Memory.wfFrom (a + 1) m

/-- The canonical form. -/
def Memory.wf (m : List Host.Cell) : Bool := Memory.wfFrom 0 m

/-- `mem[p]` (R24). -/
def State.byteAt (s : State) (p : Position) : Byte := Memory.read s.mem p.toNat

/-- `mem[p] <- v` (R24). -/
def State.writeByte (s : State) (p : Position) (v : Byte) : State :=
  { s with mem := Memory.write s.mem p.toNat v }

/-- `mem[0..3] <- v each` (R102, R227). -/
def State.writeAll (s : State) (v : Byte) : State :=
  (((s.writeByte 0 v).writeByte 1 v).writeByte 2 v).writeByte 3 v

/-! ## Pins (R23, R104) -/

/-- "writes the named output registers and leaves the others unchanged" (R9). -/
def PinUpdate.apply (u : PinUpdate) (p : Pins) : Pins :=
  ⟨u.csN.getD p.csN, u.wr.getD p.wr, u.data.getD p.data⟩

/-! ## The sequencer (R103 to R105) -/

/-- `launch(o, L)` (R103): the pins do not change at the launch edge. -/
def State.launch (s : State) (o : CurOp) (l : List MicroOp) : State :=
  { s with ctl := .busy, curOp := o, prog := l }

/-- Micro-ops handed to the sequencer after those it still has to run; with none left, it starts
(log 3). -/
def State.emit (s : State) (l : List MicroOp) : State :=
  { s with ctl := .busy, prog := s.prog ++ l }

/-- `complete(s)` (R105): only an `INIT` changes `istate` (R243). -/
def State.complete (s : State) : State :=
  { s with
    ctl := .idle
    curOp := .none
    prog := []
    istate := if s.curOp = .init then .chipConfigured else s.istate }

/-- The program after an edge, and the completion when none is left (R104). -/
def State.advanceTo (s : State) (rest : List MicroOp) : State :=
  if rest = [] then s.complete else { s with prog := rest }

/-- `run(s)` (R104): one edge in `BUSY`. -/
def State.runEdge (s : State) : Host.Outcome State Fault Refusal :=
  match s.prog with
  | [] => .fault .busyWithoutProgram
  | .act u :: rest => .next ({ s with pins := u.apply s.pins }.advanceTo rest)
  | .wait k :: rest => .next (s.advanceTo (if k > 1 then .wait (k - 1) :: rest else rest))

/-! ## Faults (R262) and reset (R290) -/

/-- `raise Fault(code)` (R262): exactly these three fields change. -/
def State.raiseFault (s : State) (c : FaultCause) : State :=
  { s with ctl := .faulted, fault := true, cause := c }

/-- A reset edge (R290), the only way out of a fault (R263): every field takes its reset value of R35,
whatever `ctl` is.
The build and the inputs still to come stay. -/
def State.resetEdge (s : State) : State := State.resetOf s.cfg s.inputs

/-! ## Inputs -/

/-- A stimulus a host can cause: anything but the model's own wire word (log 3). -/
def Stimulus.ofHost : Stimulus → Bool
  | .edge _ => true
  | .present _ => true
  | .wire _ => false

end Sys2Proof.Machine
end

