-- ==== Sys2Proof/Machine/Bus.lean ====
section
/-! DEFINITION. The timing primitive and the bracket primitives of 41_gpio_bus.md, and the serial
encoder of 42_serial_encoder.md, as micro-op builders. -/

namespace Sys2Proof.Machine

/-! ## The bus delay (R126, R295) -/

/-- `ceil(125e-6 * F_CLK)` (R126); at least 1, since `F_CLK` is positive (R5). -/
def designDelay (fClk : ℕ+) : Nat := (125 * fClk.val + 999999) / 1000000

/-- `DELAY_CYCLES`, written `D` (R5): not below the design delay (R295). -/
def delayCycles (c : Config) : Nat := designDelay c.fClk + c.delayMargin

/-! ## Line actions (R125) and brackets (R123, R124) -/

/-- `ClkLow` (R125). -/
def clkLow : MicroOp := .act ⟨none, some false, none⟩

/-- `SetData(b)` (R125). -/
def setData (b : Bool) : MicroOp := .act ⟨none, none, some b⟩

/-- `ClkHigh` (R125). -/
def clkHigh : MicroOp := .act ⟨none, some true, none⟩

/-- The act of `Begin` (R123): both lines at the same edge. -/
def beginAct : MicroOp := .act ⟨some false, some true, none⟩

/-- The act of `End` (R124). -/
def endAct : MicroOp := .act ⟨some true, some true, none⟩

/-- `Begin` (R123). -/
def beginOps (d : Nat) : List MicroOp := [beginAct, .wait d]

/-- `End` (R124). -/
def endOps (d : Nat) : List MicroOp := [endAct, .wait d]

/-! ## The serial encoder (R141) -/

/-- The micro-ops of one bit (R141). -/
def txBit (d : Nat) (b : Bool) : List MicroOp := [clkLow, setData b, .wait d, clkHigh, .wait d]

/-- `Tx(v, n)` (R141): bits 0 to `n - 1` of `v`, least significant first. -/
def tx (d : Nat) (v : TxValue) (n : Nat) : List MicroOp :=
  (List.range n).flatMap fun i => txBit d (v.getLsbD i)

/-- One bracketed transaction `Begin ++ body ++ End` (R129). -/
def bracket (d : Nat) (body : List MicroOp) : List MicroOp := beginOps d ++ body ++ endOps d

/-! ## Program length (R109) -/

/-- The edges a micro-op takes (R104). -/
def MicroOp.edges : MicroOp → Nat
  | .act _ => 1
  | .wait k => k

/-- The edges a program takes. -/
def progEdges (l : List MicroOp) : Nat := (l.map MicroOp.edges).sum

/-! ## What a program does to the pins -/

/-- The pins after a program has run from the pins `p` (R104). -/
def finalPins (p : Pins) : List MicroOp → Pins
  | [] => p
  | .act u :: l => finalPins (u.apply p) l
  | .wait _ :: l => finalPins p l

/-- The pins after each edge of a program that starts from the pins `p` (R104): an act changes them at
its edge, a delay holds them. -/
def playPins (p : Pins) : List MicroOp → List Pins
  | [] => []
  | .act u :: l => u.apply p :: playPins (u.apply p) l
  | .wait k :: l => List.replicate k p ++ playPins p l

/-- The program still to run after one edge (R104). -/
def afterEdge : List MicroOp → List MicroOp
  | [] => []
  | .act _ :: l => l
  | .wait k :: l => if k > 1 then .wait (k - 1) :: l else l

/-- The program still to run after `n` edges. -/
def afterEdges : Nat → List MicroOp → List MicroOp
  | 0, l => l
  | n + 1, l => afterEdges n (afterEdge l)

/-- Whether a transaction is open once the program still to run has run. -/
def State.transactionOpen (s : State) : Bool := !(finalPins s.pins s.prog).csN

end Sys2Proof.Machine
end

