-- ==== Sys2Proof/Machine/Command.lean ====
section
/-! DEFINITION. The command words of 43_command_protocol.md and `SendCmd` (R160 to R174), and the two
bus programs of 46_initialization.md and 44_display_refresh.md. -/

namespace Sys2Proof.Machine

/-- `rev_n(v)` (R8): `rev_n(v)[i] = v[n-1-i]`. -/
def rev {n : Nat} (v : BitVec n) : BitVec n := v.reverse

/-- A parameter bit at its place in the datasheet code (R172, R173). -/
def placeBit (b : Bool) (i : Fin 9) : DatasheetCode := if b then BitVec.twoPow 9 i else 0

/-- The datasheet code `C` of a command (R163), total on its operands: "there is no runtime validation
of command legality" (R175). -/
def datasheetCode (c : CommandCodes) : Command → DatasheetCode
  | .normalMode => c.normalMode
  | .testMode => c.testMode
  | .oscOn => c.oscOn
  | .oscRc => c.oscRc
  | .oscXtal => c.oscXtal
  | .oscExt => c.oscExt
  | .biasOn => c.biasOn
  | .biasOff => c.biasOff
  | .biasCom s b =>
    c.biasComBase ||| placeBit (s.getLsbD 1) c.biasComS1 ||| placeBit (s.getLsbD 0) c.biasComS0
      ||| placeBit (b.getLsbD 0) c.biasComC
  | .wdtTimebase t =>
    c.wdtTimebaseBase ||| placeBit (t.getLsbD 2) c.wdtTimebaseT2
      ||| placeBit (t.getLsbD 1) c.wdtTimebaseT1 ||| placeBit (t.getLsbD 0) c.wdtTimebaseT0
  | .wdtClear => c.wdtClear

/-- `code(C) = (rev_9(C) << 3) | P_CMD` (R160). -/
def commandCode (pCmd : BitVec 3) (c : DatasheetCode) : BitVec 12 :=
  ((rev c).setWidth 12 <<< 3) ||| pCmd.setWidth 12

/-- The wire word of a command in the build `cfg` (R160, R163). -/
def commandWord (cfg : Config) (c : Command) : BitVec 12 :=
  commandCode cfg.pCmd (datasheetCode cfg.cmdCode c)

/-- `SendCmd(code) = Begin ++ Tx(code, 12) ++ End` (R162). -/
def sendCmd (d : Nat) (code : BitVec 12) : List MicroOp :=
  bracket d (tx d (code.setWidth 16) 12)

/-- `initProg` (R242): the six commands of `INIT_SEQ` in their order (R244), each in its own
transaction. -/
def initProg (cfg : Config) : List MicroOp :=
  cfg.initSeq.toList.flatMap fun c => sendCmd (delayCycles cfg) (commandWord cfg c)

/-- `refreshProg(w0, w1)` (R203): one transaction of the write-address word and two data words. -/
def refreshProg (cfg : Config) (w0 w1 : TxValue) : List MicroOp :=
  bracket (delayCycles cfg)
    (tx (delayCycles cfg) (cfg.wr0.setWidth 16) 9 ++ tx (delayCycles cfg) w0 16
      ++ tx (delayCycles cfg) w1 16)

/-- A wire word other than a command (R203): inside an open transaction its `Tx` alone, since a `Tx`
"must be called inside an open transaction" (R140); with none open, a transaction of its own, since a
`Tx` stands only inside a bracket (R129, log 4). -/
def State.sendWord (s : State) (v : TxValue) (n : Nat) : State :=
  let d := delayCycles s.cfg
  s.emit (if s.transactionOpen then tx d v n else bracket d (tx d v n))

/-- A command word handed to the sequencer: `SendCmd` of its code in this build (R162). -/
def State.sendCommand (s : State) (c : Command) : State :=
  s.emit (sendCmd (delayCycles s.cfg) (commandWord s.cfg c))

end Sys2Proof.Machine
end

