-- ==== Sys2Proof/Machine/Commands.lean ====
section
/-! DEFINITION. The wire command words of R164 to R174: "Micro-ops: `SendCmd(code)`. Status written:
none. Faults: none." -/

namespace Sys2Proof.Machine

/-- `NORMAL_MODE` (R164). -/
def execNormalMode (s : State) : Host.Outcome State Fault Refusal :=
  .next (s.sendCommand .normalMode)

/-- `TEST_MODE` (R165). -/
def execTestMode (s : State) : Host.Outcome State Fault Refusal :=
  .next (s.sendCommand .testMode)

/-- `OSC_ON` (R166). -/
def execOscOn (s : State) : Host.Outcome State Fault Refusal :=
  .next (s.sendCommand .oscOn)

/-- `OSC_RC` (R167). -/
def execOscRc (s : State) : Host.Outcome State Fault Refusal :=
  .next (s.sendCommand .oscRc)

/-- `OSC_XTAL` (R168). -/
def execOscXtal (s : State) : Host.Outcome State Fault Refusal :=
  .next (s.sendCommand .oscXtal)

/-- `OSC_EXT` (R169). -/
def execOscExt (s : State) : Host.Outcome State Fault Refusal :=
  .next (s.sendCommand .oscExt)

/-- `BIAS_ON` (R170). -/
def execBiasOn (s : State) : Host.Outcome State Fault Refusal :=
  .next (s.sendCommand .biasOn)

/-- `BIAS_OFF` (R171). -/
def execBiasOff (s : State) : Host.Outcome State Fault Refusal :=
  .next (s.sendCommand .biasOff)

/-- `WDT_CLEAR` (R174). -/
def execWdtClear (s : State) : Host.Outcome State Fault Refusal :=
  .next (s.sendCommand .wdtClear)

/-- `BIAS_COM s, c` (R172): `s = 3` is sent as is. -/
def execBiasCom (sel : BitVec 2) (c : BitVec 1) (s : State) : Host.Outcome State Fault Refusal :=
  .next (s.sendCommand (.biasCom sel c))

/-- `WDT_TIMEBASE t` (R173). -/
def execWdtTimebase (t : BitVec 3) (s : State) : Host.Outcome State Fault Refusal :=
  .next (s.sendCommand (.wdtTimebase t))

end Sys2Proof.Machine
end

