-- ==== Sys2Proof/Machine/Glyph.lean ====
section
/-! DEFINITION. The 7-segment glyph lookup of 45_glyph.md. -/

namespace Sys2Proof.Machine

/-- `rot` (R224): a with d, b with e, c with f; g and dp stay. -/
def Segment.rotated : Segment → Segment
  | .a => .d
  | .b => .e
  | .c => .f
  | .d => .a
  | .e => .b
  | .f => .c
  | .g => .g
  | .dp => .dp

/-- The panel's segment that shows the viewer's segment (R223, R224). -/
def panelSegment (o : Orientation) (s : Segment) : Segment :=
  match o with
  | .normal => s
  | .rotated180 => Segment.rotated s

/-- `SEG_BIT[s]` (R5). -/
def segmentBit (b : SegBits) : Segment → Fin 8
  | .a => b.a
  | .b => b.b
  | .c => b.c
  | .d => b.d
  | .e => b.e
  | .f => b.f
  | .g => b.g
  | .dp => b.dp

/-- The segments of an entry of `DIGIT_SEGS` (R222). -/
def litSegments (d : SegmentSet) : List Segment :=
  (if d.a then [.a] else []) ++ (if d.b then [.b] else []) ++ (if d.c then [.c] else [])
    ++ (if d.d then [.d] else []) ++ (if d.e then [.e] else []) ++ (if d.f then [.f] else [])
    ++ (if d.g then [.g] else [])

/-- The pattern of a set of lit segments: the sum of `2^SEG_BIT` over it (R223, R224). -/
def segmentPattern (o : Orientation) (b : SegBits) (d : SegmentSet) : Byte :=
  BitVec.ofNat 8 ((litSegments d).map fun s => 2 ^ (segmentBit b (panelSegment o s)).val).sum

/-- `glyph(d)` (R221): blank outside 0 to 9. -/
def glyph (c : Config) (d : Byte) : Byte :=
  match c.digitSegs[d.toNat]? with
  | some segs => segmentPattern c.orientation c.segBit segs
  | none => 0x00

end Sys2Proof.Machine
end

