-- ==== Sys2Proof/Machine/Operands.lean ====
section
/-! DEFINITION. The operand forms of the requests: the fields of a sampled request (R70, R74), the
digit operand (R220), and the refresh words (R52). -/

namespace Sys2Proof.Machine

/-- The request word on the ports, `{req_op, req_pos, req_arg}` (R70). -/
def Ports.request (p : Ports) : Request := Request.ofFields p.reqOp p.reqPos p.reqArg

/-- The ports while a host presents a request and `rst = 0` (R70). -/
def Ports.presenting (r : Request) : Ports := ⟨false, true, r.op, r.pos, r.arg⟩

/-- The ports with no reset and no request (R106). -/
def Ports.quiet : Ports := ⟨false, false, 0, 0, 0⟩

/-- The pattern of the digit operand of `WRDIG` and `WRDIGS` (R74, R226, R227). -/
def State.digitPattern (s : State) (d : Byte) : Byte := glyph s.cfg d

/-- The position of the byte that goes out `i`-th in a refresh: `i` itself in a little-endian build
(R53); "A big-endian build sends `mem[1]` before `mem[0]`" (91_not_in_source.md N7), and so `mem[3]`
before `mem[2]` (DEDUCED, log 20). -/
def sentByte (o : WordOrder) (i : Nat) : Nat :=
  match o with
  | .little => i
  | .big => if i % 2 = 0 then i + 1 else i - 1

/-- `word(k)`: `{mem[2k+1], mem[2k]}` in a little-endian build (R52), `{mem[2k], mem[2k+1]}` in a
big-endian one. -/
def refreshWord (o : WordOrder) (m : List Host.Cell) (k : Nat) : TxValue :=
  Memory.read m (sentByte o (2 * k + 1)) ++ Memory.read m (sentByte o (2 * k))

/-- `word(k)` of the display memory in this build (R52). -/
def State.word (s : State) (k : Nat) : TxValue := refreshWord s.cfg.wordOrder s.mem k

end Sys2Proof.Machine
end

