-- ==== Sys2Proof/Machine/Requests.lean ====
section
/-! DEFINITION. The host requests, performed at their acceptance edge (R102). -/

namespace Sys2Proof.Machine

/-- `INIT` (R242): a second one raises `REINIT`. -/
def execInit (s : State) : Host.Outcome State Fault Refusal :=
  if s.istate = .chipConfigured then .next (s.raiseFault .reinit)
  else .next (s.launch .init (initProg s.cfg))

/-- `SETMEM p, v` (R201). -/
def execSetmem (p : Position) (v : Byte) (s : State) : Host.Outcome State Fault Refusal :=
  .next (s.writeByte p v)

/-- `WRDIG p, d` (R226). -/
def execWrdig (p : Position) (d : Byte) (s : State) : Host.Outcome State Fault Refusal :=
  .next (s.writeByte p (s.digitPattern d))

/-- `WRDIGS d` (R227). -/
def execWrdigs (d : Byte) (s : State) : Host.Outcome State Fault Refusal :=
  .next (s.writeAll (s.digitPattern d))

/-- `REFRESH` (R202, R203): the words are taken from the memory at the acceptance edge (R205). -/
def execRefresh (s : State) : Host.Outcome State Fault Refusal :=
  if s.istate ≠ .chipConfigured then .next (s.raiseFault .notInitialized)
  else .next (s.launch .refresh (refreshProg s.cfg (s.word 0) (s.word 1)))

/-- The reserved opcode 000 (R73). -/
def execReserved000 (s : State) : Host.Outcome State Fault Refusal :=
  .next (s.raiseFault .illegalOp)

/-- The reserved opcode 110 (R73). -/
def execReserved110 (s : State) : Host.Outcome State Fault Refusal :=
  .next (s.raiseFault .illegalOp)

/-- The reserved opcode 111 (R73). -/
def execReserved111 (s : State) : Host.Outcome State Fault Refusal :=
  .next (s.raiseFault .illegalOp)

end Sys2Proof.Machine
end

