-- ==== Sys2Proof/Machine/WireWords.lean ====
section
/-! DEFINITION. The two words of a refresh: the write-address word (R78, R204) and the data word
(R79). -/

namespace Sys2Proof.Machine

/-- `WRITE_ADDR0` (R204): 9 bits of `WR0`. -/
def execWriteAddr0 (s : State) : Host.Outcome State Fault Refusal :=
  .next (s.sendWord (s.cfg.wr0.setWidth 16) 9)

/-- `DATA16 w` (R79): all 16 bits. -/
def execData16 (w : BitVec 16) (s : State) : Host.Outcome State Fault Refusal :=
  .next (s.sendWord w 16)

end Sys2Proof.Machine
end

