-- ==== Sys2Proof/Machine/Dispatch.lean ====
section
/-! DEFINITION. One arm per constructor of `Instr`: `accept` of R102 for the host requests, the
sequencer's work for the wire words. -/

namespace Sys2Proof.Machine

def exec (i : Instr) (s : State) : Host.Outcome State Fault Refusal :=
  match i with
  | .init => Sys2Proof.Machine.execInit s
  | .setmem p v => Sys2Proof.Machine.execSetmem p v s
  | .wrdig p d => Sys2Proof.Machine.execWrdig p d s
  | .wrdigs d => Sys2Proof.Machine.execWrdigs d s
  | .refresh => Sys2Proof.Machine.execRefresh s
  | .reserved000 => Sys2Proof.Machine.execReserved000 s
  | .reserved110 => Sys2Proof.Machine.execReserved110 s
  | .reserved111 => Sys2Proof.Machine.execReserved111 s
  | .normalMode => Sys2Proof.Machine.execNormalMode s
  | .testMode => Sys2Proof.Machine.execTestMode s
  | .oscOn => Sys2Proof.Machine.execOscOn s
  | .oscRc => Sys2Proof.Machine.execOscRc s
  | .oscXtal => Sys2Proof.Machine.execOscXtal s
  | .oscExt => Sys2Proof.Machine.execOscExt s
  | .biasOn => Sys2Proof.Machine.execBiasOn s
  | .biasOff => Sys2Proof.Machine.execBiasOff s
  | .wdtClear => Sys2Proof.Machine.execWdtClear s
  | .biasCom sel c => Sys2Proof.Machine.execBiasCom sel c s
  | .wdtTimebase t => Sys2Proof.Machine.execWdtTimebase t s
  | .writeAddr0 => Sys2Proof.Machine.execWriteAddr0 s
  | .data16 w => Sys2Proof.Machine.execData16 w s

end Sys2Proof.Machine
end

