-- ==== Sys2Proof/Machine/Controller.lean ====
section
/-! DEFINITION. One edge of `clk` (R100): what the block samples, and the cases in their priority
order. -/

namespace Sys2Proof.Machine

/-- What an edge acts on: the sampled ports, or a wire word handed to the sequencer (log 3). -/
inductive Event
  | ports (p : Ports)
  | wire (w : WireWord)
  deriving DecidableEq, Repr

/-- What the block samples at this edge, and the inputs still to come.
A presented request stays until `req_ready = 1` (R101); a wire word waits for `IDLE` in the same way. -/
def State.sample (s : State) : Event × List Stimulus :=
  match s.inputs with
  | [] => (.ports .quiet, [])
  | .edge p :: rest => (.ports p, rest)
  | .present r :: rest =>
    (.ports (.presenting r), if s.ctl = .idle then rest else .present r :: rest)
  | .wire w :: rest =>
    if s.ctl = .idle then (.wire w, rest) else (.ports .quiet, .wire w :: rest)

/-- The instruction of a wire word is run; a word that is no row of the table is refused (log 13). -/
def runWireWord (w : WireWord) (s : State) : Host.Outcome State Fault Refusal :=
  match decodeWire w with
  | .ok i => exec i s
  | .error r => .refused (.undecodableWireWord r)

/-- `step(s, in)` (R100), cases in priority order: reset, acceptance, idle, a running program, a
fault. -/
def portsEdge (p : Ports) (s : State) : Host.Outcome State Fault Refusal :=
  if p.rst then .next s.resetEdge
  else
    match s.ctl with
    | .idle => if p.reqValid then exec (decodeRequest p.request) s else .next s
    | .busy => s.runEdge
    | .faulted => .next s

/-- One rising edge of `clk`: the inputs are consumed, and the block acts on what it sampled. -/
def clockEdge (s : State) : Host.Outcome State Fault Refusal :=
  match s.sample with
  | (.ports p, rest) => portsEdge p { s with inputs := rest }
  | (.wire w, rest) => runWireWord w { s with inputs := rest }

/-- The stimulus that makes the next edge run an encoded instruction. -/
def stimulusOf : Encoded → Stimulus
  | .host13 r => .present r
  | .wire w => .wire w

/-- The state with an opcode-table word next at its inputs: a request on the request port, a wire word
at the sequencer (log 10, 16). -/
def fetchNext (s : State) (nbits w : Nat) : State :=
  match tableWord nbits w with
  | some e => { s with inputs := stimulusOf e :: s.inputs }
  | none => s

end Sys2Proof.Machine
end

