-- ==== Sys2Proof/Machine/Step.lean ====
section
/-! DEFINITION. The step: one rising edge of `clk` (R21, R100). -/

namespace Sys2Proof.Machine

/-- One rising edge of `clk`. -/
def step (s : State) : Host.Outcome State Fault Refusal := clockEdge s

/-- The state with an opcode-table word where the step takes its next instruction from. -/
def State.withFetchWord (s : State) (nbits w : Nat) : State := fetchNext s nbits w

end Sys2Proof.Machine
end

