-- ==== Sys2Proof/Machine/AssemblerText.lean ====
section
/-! DEFINITION. The text form of the assembler (R85, R86): one request per line, `;` starts a comment,
numbers are decimal or `0x` hexadecimal (log 22). -/

namespace Sys2Proof.Machine

/-- A space, a tab or a carriage return. -/
def isBlank (c : Char) : Bool := c == ' ' || c == '\t' || c == '\r'

/-- The text without blanks at its ends. -/
def trimBlanks (cs : List Char) : List Char :=
  ((cs.dropWhile isBlank).reverse.dropWhile isBlank).reverse

/-- The pieces of a text between the separators `sep`. -/
def splitAtChar (sep : Char) : List Char → List (List Char)
  | [] => [[]]
  | c :: cs =>
    if c = sep then [] :: splitAtChar sep cs
    else
      match splitAtChar sep cs with
      | [] => [[c]]
      | p :: ps => (c :: p) :: ps

/-- The value of a digit. -/
def digitValue (c : Char) : Option Nat :=
  if '0'.toNat ≤ c.toNat ∧ c.toNat ≤ '9'.toNat then some (c.toNat - '0'.toNat)
  else if 'a'.toNat ≤ c.toNat ∧ c.toNat ≤ 'f'.toNat then some (c.toNat - 'a'.toNat + 10)
  else if 'A'.toNat ≤ c.toNat ∧ c.toNat ≤ 'F'.toNat then some (c.toNat - 'A'.toNat + 10)
  else none

/-- The number of a run of digits in a base, after `acc`. -/
def digitsValue (base acc : Nat) : List Char → Option Nat
  | [] => some acc
  | c :: cs =>
    match digitValue c with
    | some v => if v < base then digitsValue base (acc * base + v) cs else none
    | none => none

/-- A decimal or `0x` hexadecimal number (R85). -/
def parseNumber : List Char → Option Nat
  | '0' :: 'x' :: c :: cs => digitsValue 16 0 (c :: cs)
  | [] => none
  | c :: cs => digitsValue 10 0 (c :: cs)

/-- The operands after a mnemonic, separated by commas. -/
def parseOperands (cs : List Char) : Option (List Nat) :=
  if trimBlanks cs = [] then some []
  else (splitAtChar ',' cs).mapM fun p => parseNumber (trimBlanks p)

/-- A mnemonic with its operands (R85, R86). -/
def lineOf (m : List Char) (ops : List Nat) : Option AsmLine :=
  if m = ['I', 'N', 'I', 'T'] then
    match ops with
    | [] => some .init
    | _ => none
  else if m = ['S', 'E', 'T', 'M', 'E', 'M'] then
    match ops with
    | [p, v] => some (.setmem p v)
    | _ => none
  else if m = ['W', 'R', 'D', 'I', 'G'] then
    match ops with
    | [p, d] => some (.wrdig p d)
    | _ => none
  else if m = ['W', 'R', 'D', 'I', 'G', 'S'] then
    match ops with
    | [d] => some (.wrdigs d)
    | _ => none
  else if m = ['R', 'E', 'F', 'R', 'E', 'S', 'H'] then
    match ops with
    | [] => some .refresh
    | _ => none
  else if m = ['C', 'L', 'E', 'A', 'R'] then
    match ops with
    | [] => some .clear
    | _ => none
  else if m = ['S', 'H', 'O', 'W'] then
    match ops with
    | [d] => some (.showDigit d)
    | _ => none
  else if m = ['S', 'H', 'O', 'W', '4'] then
    match ops with
    | [d0, d1, d2, d3] => some (.showFour d0 d1 d2 d3)
    | _ => none
  else none

/-- A line of text: nothing, if it is blank or a comment, or one source line. -/
def parseLine (cs : List Char) : Option (List AsmLine) :=
  match trimBlanks (cs.takeWhile fun c => c != ';') with
  | [] => some []
  | line =>
    match parseOperands (line.dropWhile fun c => !isBlank c) with
    | some ops => (lineOf (line.takeWhile fun c => !isBlank c) ops).map fun l => [l]
    | none => none

/-- The request words of a source text.
When one line is refused (R85), the whole text is, and its other lines give no words: the model's
choice (DESIGN CHOICE, log 22). -/
def assembleText (cs : List Char) : Option (List Request) :=
  match (splitAtChar '\n' cs).mapM parseLine with
  | some ls => assembleLines ls.flatten
  | none => none

end Sys2Proof.Machine
end

