-- ==== Sys2Proof/Machine/Flags.lean ====
section
/-! DEFINITION. The status outputs (R31, R33, R38): the block has no other flags. -/

namespace Sys2Proof.Machine

/-- The code of a fault cause (R261). -/
def FaultCause.code : FaultCause → BitVec 3
  | .none => 0
  | .illegalOp => 1
  | .notInitialized => 2
  | .reinit => 3

/-- `req_ready`: combinational in `rst` (R101). -/
def State.reqReady (s : State) (rst : Bool) : Bool := decide (s.ctl = .idle) && !rst

/-- `busy` (R38). -/
def State.busy (s : State) : Bool := decide (s.ctl = .busy)

/-- `inited` (R38). -/
def State.inited (s : State) : Bool := decide (s.istate = .chipConfigured)

/-- The output ports of R38. -/
structure Outputs where
  lcdCsN : Bool
  lcdWr : Bool
  lcdData : Bool
  reqReady : Bool
  busy : Bool
  inited : Bool
  fault : Bool
  faultCause : BitVec 3
  deriving DecidableEq, Repr

/-- The outputs of a state while the reset input is `rst` (R38). -/
def State.outputs (s : State) (rst : Bool) : Outputs where
  lcdCsN := s.pins.csN
  lcdWr := s.pins.wr
  lcdData := s.pins.data
  reqReady := s.reqReady rst
  busy := s.busy
  inited := s.inited
  fault := s.fault
  faultCause := s.cause.code

/-- The 7-bit status word (R33): `fault_cause` in bits 6:4, then `fault`, `inited`, `busy`,
`req_ready`. -/
def State.statusWord (s : State) (rst : Bool) : BitVec 7 :=
  s.cause.code ++ BitVec.ofBool s.fault ++ BitVec.ofBool s.inited ++ BitVec.ofBool s.busy
    ++ BitVec.ofBool (s.reqReady rst)

end Sys2Proof.Machine
end

