-- ==== Sys2Proof/Machine/Realization.lean ====
section
/-! DEFINITION. The register realization of 10_state.md R28 with the shift register of
42_serial_encoder.md R143: the block with its sequencer held in `phase`, `txn`, `word`, `SR`, `bcnt`
and `dcnt` instead of a list of micro-ops (log 14). -/

namespace Sys2Proof.Machine

/-- `phase` (R28): "which of the micro-ops of rules R123, R124, R141 is next". -/
inductive Phase
  | idle
  | beginAct
  | beginWait
  | clkLow
  | setData
  | lowWait
  | clkHigh
  | highWait
  | endAct
  | endWait
  deriving DecidableEq, Repr

/-- The realization registers of R28. -/
structure SeqRegs where
  phase : Phase
  /-- Index into `INIT_SEQ`. -/
  txn : Fin 6
  /-- Which word of a REFRESH. -/
  word : Fin 3
  /-- The transmit shift register. -/
  sr : BitVec 16
  /-- Bits left in the current word. -/
  bcnt : BitVec 5
  /-- Delay cycles left. -/
  dcnt : Nat
  deriving DecidableEq, Repr

/-- The reset values of R35. -/
def SeqRegs.reset : SeqRegs := ⟨.idle, 0, 0, 0, 0, 0⟩

/-- The block in registers: `core.prog` is not used and stays empty. -/
structure RegState where
  core : State
  regs : SeqRegs
  deriving DecidableEq, Repr

/-- The words of the running transaction: the command of `INIT_SEQ` that `txn` names (R241), or the
three words of a refresh (R203), each with its bit count. -/
def wordOf (s : State) (txn : Fin 6) (word : Fin 3) : TxValue × BitVec 5 :=
  match s.curOp with
  | .refresh =>
    match word with
    | 0 => (s.cfg.wr0.setWidth 16, 9)
    | 1 => (s.word 0, 16)
    | 2 => (s.word 1, 16)
  | _ => ((commandWord s.cfg s.cfg.initSeq[txn]).setWidth 16, 12)

/-- Whether the running transaction has a word after `word`. -/
def moreWords (s : State) (word : Fin 3) : Bool :=
  match s.curOp with
  | .refresh => decide (word.val < 2)
  | _ => false

/-- Whether the running program has a transaction after `txn`. -/
def moreTxns (s : State) (txn : Fin 6) : Bool :=
  match s.curOp with
  | .init => decide (txn.val < 5)
  | _ => false

/-- The registers with a word loaded: "at the start of `Tx`, `SR <- v` and `bcnt <- n`" (R143). -/
def SeqRegs.load (r : SeqRegs) (s : State) (txn : Fin 6) (word : Fin 3) : SeqRegs :=
  { r with
    phase := .clkLow, txn := txn, word := word, sr := (wordOf s txn word).1
    bcnt := (wordOf s txn word).2, dcnt := 0 }

/-- The registers with a delay started (R126). -/
def SeqRegs.startWait (r : SeqRegs) (s : State) (ph : Phase) : SeqRegs :=
  { r with phase := ph, dcnt := delayCycles s.cfg }

/-- A pin update at this edge. -/
def RegState.drive (r : RegState) (u : PinUpdate) (regs : SeqRegs) : RegState :=
  ⟨{ r.core with pins := u.apply r.core.pins }, regs⟩

/-- One edge of a delay: at its last cycle, `done`. -/
def RegState.waitOr (r : RegState) (done : RegState) : RegState :=
  if r.regs.dcnt > 1 then { r with regs := { r.regs with dcnt := r.regs.dcnt - 1 } } else done

/-- One edge in `BUSY`, by `phase`. -/
def RegState.runEdge (r : RegState) : RegState :=
  let q := r.regs
  match q.phase with
  | .idle => r
  | .beginAct => r.drive ⟨some false, some true, none⟩ (q.startWait r.core .beginWait)
  | .beginWait => r.waitOr { r with regs := q.load r.core q.txn 0 }
  | .clkLow => r.drive ⟨none, some false, none⟩ { q with phase := .setData }
  | .setData => r.drive ⟨none, none, some (q.sr.getLsbD 0)⟩ (q.startWait r.core .lowWait)
  | .lowWait => r.waitOr { r with regs := { q with phase := .clkHigh, dcnt := 0 } }
  | .clkHigh =>
    r.drive ⟨none, some true, none⟩
      ({ q with sr := q.sr >>> 1, bcnt := q.bcnt - 1 }.startWait r.core .highWait)
  | .highWait =>
    r.waitOr
      (if q.bcnt ≠ 0 then { r with regs := { q with phase := .clkLow, dcnt := 0 } }
       else if moreWords r.core q.word then { r with regs := q.load r.core q.txn (q.word + 1) }
       else { r with regs := { q with phase := .endAct, dcnt := 0 } })
  | .endAct => r.drive ⟨some true, some true, none⟩ (q.startWait r.core .endWait)
  | .endWait =>
    r.waitOr
      (if moreTxns r.core q.txn then
         { r with regs := { q with phase := .beginAct, txn := q.txn + 1, dcnt := 0 } }
       else ⟨r.core.complete, SeqRegs.reset⟩)

/-- The start of a bus program: `ctl` and `cur_op` as R103 says, the registers at the first act. -/
def RegState.launch (r : RegState) (o : CurOp) : RegState :=
  ⟨{ r.core with ctl := .busy, curOp := o }, { SeqRegs.reset with phase := .beginAct }⟩

/-- Acceptance (R102) with the programs held in registers; the requests that launch none act on the
state as in the list form. -/
def RegState.accept (r : RegState) (q : Request) : RegState :=
  match decodeRequest q with
  | .init =>
    if r.core.istate = .chipConfigured then { r with core := r.core.raiseFault .reinit }
    else r.launch .init
  | .refresh =>
    if r.core.istate ≠ .chipConfigured then { r with core := r.core.raiseFault .notInitialized }
    else r.launch .refresh
  | i =>
    match exec i r.core with
    | .next s => { r with core := s }
    | _ => r

/-- One rising edge of `clk` (R100). The realization has no port for wire words: it drops one. -/
def RegState.step (r : RegState) : RegState :=
  match r.core.sample with
  | (.wire _, rest) => { r with core := { r.core with inputs := rest } }
  | (.ports p, rest) =>
    let r := { r with core := { r.core with inputs := rest } }
    if p.rst then ⟨r.core.resetEdge, SeqRegs.reset⟩
    else
      match r.core.ctl with
      | .idle => if p.reqValid then r.accept p.request else r
      | .busy => r.runEdge
      | .faulted => r

/-- The block in registers after a reset edge. -/
def RegState.resetOf (cfg : Config) (inputs : List Stimulus) : RegState :=
  ⟨State.resetOf cfg inputs, SeqRegs.reset⟩

/-- `n` edges of the block in registers. -/
def RegState.run : Nat → RegState → RegState
  | 0, r => r
  | n + 1, r => RegState.run n r.step

/-! ## The program the registers stand for -/

/-- The micro-ops of the words of the running transaction from `word` on. -/
def wordsFrom (s : State) (txn : Fin 6) (word : Fin 3) : List MicroOp :=
  let d := delayCycles s.cfg
  match s.curOp with
  | .refresh =>
    ((List.range 3).drop word.val).flatMap fun k =>
      tx d (wordOf s txn (Fin.ofNat 3 k)).1 (wordOf s txn (Fin.ofNat 3 k)).2.toNat
  | _ => tx d (wordOf s txn word).1 (wordOf s txn word).2.toNat

/-- The micro-ops of the words after `word`. -/
def wordsAfter (s : State) (txn : Fin 6) (word : Fin 3) : List MicroOp :=
  if moreWords s word then wordsFrom s txn (word + 1) else []

/-- The transactions of the program after `txn`. -/
def txnsAfter (s : State) (txn : Fin 6) : List MicroOp :=
  match s.curOp with
  | .init =>
    (s.cfg.initSeq.toList.drop (txn.val + 1)).flatMap fun c =>
      sendCmd (delayCycles s.cfg) (commandWord s.cfg c)
  | _ => []

/-- What follows the bits of the current word: the words after it, the `End`, the transactions
after. -/
def afterWord (s : State) (q : SeqRegs) : List MicroOp :=
  wordsAfter s q.txn q.word ++ endOps (delayCycles s.cfg) ++ txnsAfter s q.txn

/-- The list of R27 that the registers stand for. -/
def RegState.program (r : RegState) : List MicroOp :=
  let s := r.core
  let q := r.regs
  let d := delayCycles s.cfg
  match q.phase with
  | .idle => []
  | .beginAct => beginOps d ++ wordsFrom s q.txn 0 ++ endOps d ++ txnsAfter s q.txn
  | .beginWait => .wait q.dcnt :: (wordsFrom s q.txn 0 ++ endOps d ++ txnsAfter s q.txn)
  | .clkLow => tx d q.sr q.bcnt.toNat ++ afterWord s q
  | .setData =>
    Machine.setData (q.sr.getLsbD 0) :: .wait d :: Machine.clkHigh :: .wait d ::
      (tx d (q.sr >>> 1) (q.bcnt.toNat - 1) ++ afterWord s q)
  | .lowWait =>
    .wait q.dcnt :: Machine.clkHigh :: .wait d ::
      (tx d (q.sr >>> 1) (q.bcnt.toNat - 1) ++ afterWord s q)
  | .clkHigh =>
    Machine.clkHigh :: .wait d :: (tx d (q.sr >>> 1) (q.bcnt.toNat - 1) ++ afterWord s q)
  | .highWait => .wait q.dcnt :: (tx d q.sr q.bcnt.toNat ++ afterWord s q)
  | .endAct => endOps d ++ txnsAfter s q.txn
  | .endWait => .wait q.dcnt :: txnsAfter s q.txn

/-- The list form of a block in registers. -/
def RegState.listForm (r : RegState) : State := { r.core with prog := r.program }

/-- A phase in which the current word still has a bit to send. -/
def Phase.inBit : Phase → Bool
  | .clkLow => true
  | .setData => true
  | .lowWait => true
  | .clkHigh => true
  | _ => false

/-- A phase in which a delay runs. -/
def Phase.isWait : Phase → Bool
  | .beginWait => true
  | .lowWait => true
  | .highWait => true
  | .endWait => true
  | _ => false

/-- The registers of a block that only a host acts on: a phase runs exactly while the block is `BUSY`,
for an INIT or a REFRESH; `dcnt` counts a running delay down from `D` (R28); `bcnt` is 0 to 16 (R28)
and not 0 inside a bit (R143). -/
structure RegState.Ok (r : RegState) : Prop where
  driven : r.core.inputs.all Stimulus.ofHost = true
  unused : r.core.prog = []
  running : r.core.ctl = .busy ↔ r.regs.phase ≠ .idle
  request : r.core.ctl = .busy → r.core.curOp = .init ∨ r.core.curOp = .refresh
  delay : r.regs.phase.isWait = true → 1 ≤ r.regs.dcnt ∧ r.regs.dcnt ≤ delayCycles r.core.cfg
  bits : r.regs.bcnt.toNat ≤ 16
  inBit : r.regs.phase.inBit = true → r.regs.bcnt ≠ 0

end Sys2Proof.Machine
end

