-- ==== Sys2Proof/Machine/Monitor.lean ====
section
/-! DEFINITION. The bus monitor of R108: what a claim about the wires is stated through. It is an
observation over a run, no part of the state (R273). -/

namespace Sys2Proof.Machine

/-- A cycle as the monitor sees it: the pins, and whether the edge that began it was a reset edge. -/
structure Cycle where
  pins : Pins
  reset : Bool
  deriving DecidableEq, Repr

/-- A closed transaction: its bit list, and whether a reset edge closed it (R108). -/
structure Transaction where
  bits : List Bool
  truncated : Bool
  deriving DecidableEq, Repr

/-- What the monitor holds after a cycle. -/
structure Monitor where
  /-- The pins of the last cycle seen. -/
  last : Pins
  /-- The bits of the open transaction, if one is open. -/
  current : Option (List Bool)
  /-- The closed transactions, oldest first. -/
  closed : List Transaction
  /-- The number of cycles in which `wr` rose as `cs_n` changed. -/
  clashes : Nat
  deriving DecidableEq, Repr

/-- The monitor before its first cycle, the pins standing at `p` (log 21). -/
def Monitor.start (p : Pins) : Monitor := ⟨p, none, [], 0⟩

/-- `wr` has just risen. -/
def Monitor.rises (m : Monitor) (c : Cycle) : Bool := !m.last.wr && c.pins.wr

/-- One cycle (R108): a transaction opens when `cs_n` falls and closes when it is next 1; strictly
between, each rise of `wr` records the level of `data`. -/
def Monitor.see (m : Monitor) (c : Cycle) : Monitor where
  last := c.pins
  current :=
    match m.current with
    | some bits =>
      if c.pins.csN then none
      else if m.rises c then some (bits ++ [c.pins.data])
      else some bits
    | none => if m.last.csN && !c.pins.csN then some [] else none
  closed :=
    match m.current with
    | some bits => if c.pins.csN then m.closed ++ [⟨bits, c.reset⟩] else m.closed
    | none => m.closed
  clashes := if m.rises c && m.last.csN != c.pins.csN then m.clashes + 1 else m.clashes

/-- The monitor's report on a run of cycles that starts from the pins `p`. -/
def monitor (p : Pins) (cs : List Cycle) : Monitor := cs.foldl Monitor.see (Monitor.start p)

/-- Whether the next edge is a reset edge (R22, R290). -/
def State.resetNext (s : State) : Bool :=
  match s.sample with
  | (.ports p, _) => p.rst
  | (.wire _, _) => false

/-- The cycles after the next `n` edges, as far as the machine goes on. -/
def trace : Nat → State → List Cycle
  | 0, _ => []
  | n + 1, s =>
    match step s with
    | .next t => ⟨t.pins, s.resetNext⟩ :: trace n t
    | _ => []

/-- The cycles of a program that runs undisturbed from the pins `p`. -/
def programCycles (p : Pins) (l : List MicroOp) : List Cycle :=
  (playPins p l).map fun q => ⟨q, false⟩

/-- The low `n` bits of a value, least significant first: the bits `Tx(v, n)` puts on the wire
(R142). -/
def wireBits {w : Nat} (v : BitVec w) (n : Nat) : List Bool := (List.range n).map v.getLsbD

end Sys2Proof.Machine
end

