-- ==== Sys2Proof/Machine/Receiver.lean ====
section
/-! DEFINITION. The receiver of R80: the bus monitor of R108 with a decoder, which tells the class of a
transaction, and with it the lengths of its words, by its first three wire bits. -/

namespace Sys2Proof.Machine

/-- The two classes of a transaction (R80). -/
inductive TransactionClass
  /-- 1, 0, 0: a command transaction of 12 bits. -/
  | command
  /-- 1, 0, 1: a write transaction of 9 bits, then 16-bit data words. -/
  | write
  deriving DecidableEq, Repr

/-- The class of a transaction, by its first three wire bits (R80).
With fewer bits, or with three others, there is none (log 26). -/
def classOfBits : List Bool → Option TransactionClass
  | true :: false :: false :: _ => some .command
  | true :: false :: true :: _ => some .write
  | _ => none

/-- The number whose bits come least significant first (R51). -/
def numberOfBits : List Bool → Nat
  | [] => 0
  | b :: l => Nat.bit b (numberOfBits l)

/-- The word of a run of wire bits, the first of them bit 0 (R51). -/
def wordOfBits (n : Nat) (l : List Bool) : BitVec n := BitVec.ofNat n (numberOfBits l)

/-- The first `k` data words, 16 bits each (R79, R80). -/
def dataWords : Nat → List Bool → List WireWord
  | 0, _ => []
  | k + 1, l => .wire16 (wordOfBits 16 (l.take 16)) :: dataWords k (l.drop 16)

/-- The wire words of a transaction, cut at the lengths its class gives (R80).
Bits that are no whole words of the class give none (log 26). -/
def wordsOfBits (l : List Bool) : Option (List WireWord) :=
  match classOfBits l with
  | some .command => if l.length = 12 then some [.wire12 (wordOfBits 12 l)] else none
  | some .write =>
    if 9 ≤ l.length ∧ (l.length - 9) % 16 = 0 then
      some (.wire9 (wordOfBits 9 (l.take 9)) :: dataWords ((l.length - 9) / 16) (l.drop 9))
    else none
  | none => none

/-- The class of a transaction the monitor reports (R80). -/
def Transaction.kind (t : Transaction) : Option TransactionClass := classOfBits t.bits

/-- The wire words of a transaction the monitor reports (R80). -/
def Transaction.words (t : Transaction) : Option (List WireWord) := wordsOfBits t.bits

/-- The rows of the opcode table that a transaction carries: its words, each decoded (R80). -/
def Transaction.instructions (t : Transaction) : Option (List Instr) :=
  match t.words with
  | some ws => ws.mapM fun w => (decodeWire w).toOption
  | none => none

end Sys2Proof.Machine
end

