-- ==== Sys2Proof/Machine/Sequence.lean ====
section
/-! DEFINITION. Instructions performed one after the other, without the edges between them: how the
words of a bus program make up the program (R242, R203). -/

namespace Sys2Proof.Machine

/-- The instructions of a list, each in the state the one before left. -/
def execSeq : List Instr → State → Host.Outcome State Fault Refusal
  | [], s => .next s
  | i :: is, s =>
    match exec i s with
    | .next t => execSeq is t
    | .fault r => .fault r
    | .refused r => .refused r

/-- The opcode-table row of a command (R163). -/
def commandInstr : Command → Instr
  | .normalMode => .normalMode
  | .testMode => .testMode
  | .oscOn => .oscOn
  | .oscRc => .oscRc
  | .oscXtal => .oscXtal
  | .oscExt => .oscExt
  | .biasOn => .biasOn
  | .biasOff => .biasOff
  | .biasCom s c => .biasCom s c
  | .wdtTimebase t => .wdtTimebase t
  | .wdtClear => .wdtClear

end Sys2Proof.Machine
end

