-- ==== Sys2Proof/Safety.lean ====
section
/-! DEFINITION. What claims speak of: runs that end well (R112), the lines' discipline (R121, R130),
the invariant of the block, and the runs a host can cause. -/

namespace Sys2Proof.Machine

/-- "A run *ends well* at a cycle in which `ctl = IDLE` and `fault = 0`" (R112). -/
def State.endsWell (s : State) : Bool := decide (s.ctl = .idle) && !s.fault

/-- The idle levels (R121). -/
def Pins.atRest (p : Pins) : Bool := p.csN && p.wr

/-- A change of the pins in which `wr`, if it rises, rises inside a transaction, while `cs_n` keeps
its level (R130). -/
def Pins.changeOk (p q : Pins) : Bool := p.wr || !q.wr || (!p.csN && !q.csN)

/-- A program that, run from the pins `p`, makes only such changes and ends with the lines at rest
(R121, R129, R130). -/
def linesOk (p : Pins) : List MicroOp → Bool
  | [] => p.atRest
  | .act u :: l => p.changeOk (u.apply p) && linesOk (u.apply p) l
  | .wait _ :: l => linesOk p l

/-- Every delay of a program is a `Wait(k)` with `1 <= k <= D` (R27). -/
def delaysOk (d : Nat) (l : List MicroOp) : Bool :=
  l.all fun m =>
    match m with
    | .act _ => true
    | .wait k => decide (1 ≤ k) && decide (k ≤ d)

/-- The invariant of the block. -/
structure State.Inv (s : State) : Prop where
  /-- The display memory is in its canonical form (R50). -/
  memory : Memory.wf s.mem = true
  /-- "`fault = 1` exactly when `ctl = FAULTED`" (R29). -/
  fault : s.fault = true ↔ s.ctl = .faulted
  /-- `fault_cause` is "0 while `fault = 0`" (R29), and a fault has a cause (R261). -/
  cause : s.cause = .none ↔ s.fault = false
  /-- "`prog` is empty and `cur_op = NONE` whenever `ctl != BUSY`" (R27). -/
  atRest : s.ctl ≠ .busy → s.prog = [] ∧ s.curOp = .none
  /-- A program is left while the block is `BUSY` (R103, R104, R105). -/
  running : s.ctl = .busy → s.prog ≠ []
  /-- "`Wait(k)` with `1 <= k <= D`" (R27). -/
  delays : delaysOk (delayCycles s.cfg) s.prog = true
  /-- The lines' discipline, now and to the end of the program (R121, R130). -/
  lines : linesOk s.pins s.prog = true
  /-- An INIT runs before the chip is configured (R242, R243), -/
  initFirst : s.curOp = .init → s.istate = .linesConfigured
  /-- a REFRESH after (R202). -/
  refreshAfter : s.curOp = .refresh → s.istate = .chipConfigured

/-- Only a host acts on the block from here on. -/
def State.hostDriven (s : State) : Bool := s.inputs.all Stimulus.ofHost

/-- Every input still to come is a request the host holds until it is accepted: no reset comes. -/
def State.requestsOnly (s : State) : Bool :=
  s.inputs.all fun x =>
    match x with
    | .present _ => true
    | _ => false

/-- What the block runs when only a host acts on it (R178): its program is what is left of an INIT's
or of a REFRESH's, the latter with the words the memory holds now (R205). -/
structure State.HostInv (s : State) : Prop where
  driven : s.hostDriven = true
  atRest : s.ctl ≠ .busy → s.prog = [] ∧ s.curOp = .none
  running : s.ctl = .busy →
    s.prog ≠ [] ∧ ∃ n,
      (s.curOp = .init ∧ s.prog = afterEdges n (initProg s.cfg)) ∨
      (s.curOp = .refresh ∧
        s.prog = afterEdges n (refreshProg s.cfg (s.word 0) (s.word 1)))

/-- The bits of a refresh: `WR0`, then bit `j` of the data is `mem[j div 8][j mod 8]` (R53, R203), with
the bytes of each pair exchanged in a big-endian build. -/
def refreshBits (s : State) : List Bool :=
  wireBits s.cfg.wr0 9 ++
    (List.range 32).map fun j => (Memory.read s.mem (sentByte s.cfg.wordOrder (j / 8))).getLsbD (j % 8)

/-- The request the block accepts at the next edge, if it accepts one (R101). -/
def State.accepts (s : State) : Option Request :=
  match s.sample with
  | (.ports p, _) => if p.reqValid && s.reqReady p.rst then some p.request else none
  | (.wire _, _) => none

end Sys2Proof.Machine
end

