-- ==== Sys2Proof/Certificates/Slice0/Obligations.lean ====
section
/-! DEFINITION. The statements for the provers, from the numbered rules of spec/. -/

open Sys2Proof Sys2Proof.Machine

/-! ## Encodings -/

/-- One word of each family, written out from the spec's encoding: R70 and R71 for the requests, R163
for the commands, R78 and R79 for the words of a refresh. -/
def Obligations.WrittenWordsDecode : Prop :=
  decodeRequest 0b0010000000000 = .init ∧
  decodeRequest 0b0101010000000 = .setmem 2 0x80 ∧
  decodeRequest 0b0111100000111 = .wrdig 3 7 ∧
  decodeRequest 0b1000000001000 = .wrdigs 8 ∧
  decodeRequest 0b1010000000000 = .refresh ∧
  decodeRequest 0b1100101010101 = .reserved110 ∧
  decodeWire (.wire12 0b011000111001) = .ok .normalMode ∧
  decodeWire (.wire12 0b000010100001) = .ok (.biasCom 2 0) ∧
  decodeWire (.wire12 0b000100101001) = .ok (.wdtTimebase 4) ∧
  decodeWire (.wire9 0b000000101) = .ok .writeAddr0 ∧
  decodeWire (.wire16 0x8001) = .ok (.data16 0x8001)

/-- R71: the opcode map, with the reserved opcodes of R73 and the operands of R74. -/
def Obligations.RequestOpcodeMap : Prop :=
  ∀ (p : Position) (a : Byte),
    decodeRequest (Request.ofFields 0b000 p a) = .reserved000 ∧
    decodeRequest (Request.ofFields 0b001 p a) = .init ∧
    decodeRequest (Request.ofFields 0b010 p a) = .setmem p a ∧
    decodeRequest (Request.ofFields 0b011 p a) = .wrdig p a ∧
    decodeRequest (Request.ofFields 0b100 p a) = .wrdigs a ∧
    decodeRequest (Request.ofFields 0b101 p a) = .refresh ∧
    decodeRequest (Request.ofFields 0b110 p a) = .reserved110 ∧
    decodeRequest (Request.ofFields 0b111 p a) = .reserved111

/-- Every instruction, with every operand, is decoded from its word. -/
def Obligations.DecodeInvertsEncode : Prop :=
  ∀ i : Instr, decode (encode i) = .ok i

/-- A word matches the one row of spec/opcode_table.json whose instruction it decodes to; a rejected
word matches none. -/
def Obligations.DecodeAgreesWithOpcodeTable : Prop :=
  ∀ e : Encoded, matchingRows e =
    match decode e with
    | .ok i => [i.mnemonic]
    | .error _ => []

/-- R72: two request words that differ only in fields their opcode does not use have the same effect
at the edge that accepts them, and the words of the assembler hold 0 there. -/
def Obligations.UnusedFieldsHaveNoEffect : Prop :=
  (∀ (s : State) (r r' : Request), r.op = r'.op →
    (r.op = 0b010 ∨ r.op = 0b011 → r.pos = r'.pos) →
    (r.op = 0b010 ∨ r.op = 0b011 ∨ r.op = 0b100 → r.arg = r'.arg) →
    exec (decodeRequest r) s = exec (decodeRequest r') s) ∧
  (∀ i r, requestWord i = some r →
    (¬(r.op = 0b010 ∨ r.op = 0b011) → r.pos = 0) ∧
    (¬(r.op = 0b010 ∨ r.op = 0b011 ∨ r.op = 0b100) → r.arg = 0))

/-- R85 and R86: the words of each line, for the operands in range, and no words for the others. -/
def Obligations.AssemblerWritesTheStatedWords : Prop :=
  AsmLine.init.assemble = some [0x0400] ∧
  AsmLine.refresh.assemble = some [0x1400] ∧
  AsmLine.clear.assemble = some [0x0800, 0x0900, 0x0A00, 0x0B00] ∧
  (∀ p v, p < 4 → v < 256 →
    (AsmLine.setmem p v).assemble = some [BitVec.ofNat 13 (0x0800 + p * 0x100 + v)] ∧
    (AsmLine.wrdig p v).assemble = some [BitVec.ofNat 13 (0x0C00 + p * 0x100 + v)]) ∧
  (∀ d, d < 256 →
    (AsmLine.wrdigs d).assemble = some [BitVec.ofNat 13 (0x1000 + d)] ∧
    (AsmLine.showDigit d).assemble = some [BitVec.ofNat 13 (0x1000 + d), 0x1400]) ∧
  (∀ d0 d1 d2 d3, d0 < 256 → d1 < 256 → d2 < 256 → d3 < 256 →
    (AsmLine.showFour d0 d1 d2 d3).assemble =
      some [BitVec.ofNat 13 (0x0C00 + d0), BitVec.ofNat 13 (0x0D00 + d1),
        BitVec.ofNat 13 (0x0E00 + d2), BitVec.ofNat 13 (0x0F00 + d3), 0x1400]) ∧
  (∀ p v, ¬(p < 4 ∧ v < 256) →
    (AsmLine.setmem p v).assemble = none ∧ (AsmLine.wrdig p v).assemble = none) ∧
  (∀ d, ¬d < 256 →
    (AsmLine.wrdigs d).assemble = none ∧ (AsmLine.showDigit d).assemble = none) ∧
  (∀ d0 d1 d2 d3, ¬(d0 < 256 ∧ d1 < 256 ∧ d2 < 256 ∧ d3 < 256) →
    (AsmLine.showFour d0 d1 d2 d3).assemble = none)

/-! ## Command words -/

/-- R8: `rev_n(v)[i] = v[n-1-i]`, and it is its own inverse. -/
def Obligations.ReversalIsItsOwnInverse : Prop :=
  ∀ (n : Nat) (v : BitVec n),
    rev (rev v) = v ∧ ∀ i, i < n → (rev v).getLsbD i = v.getLsbD (n - 1 - i)

/-- R163: the datasheet code and the wire word of each command without operands, in the default
build. -/
def Obligations.CommandTable : Prop :=
  ∀ f, let cfg := defaultConfig f
    [Command.normalMode, .testMode, .oscOn, .oscRc, .oscXtal, .oscExt, .biasOn, .biasOff,
        .wdtClear].map
      (fun c => (datasheetCode cfg.cmdCode c, commandWord cfg c)) =
    [(0x1C6, 0x639), (0x1C0, 0x039), (0x002, 0x401), (0x030, 0x0C1), (0x028, 0x141),
      (0x038, 0x1C1), (0x006, 0x601), (0x004, 0x201), (0x01C, 0x381)]

/-- R81, R172, R173: the words of the two commands with operands, in the default build. -/
def Obligations.OperandCommandWords : Prop :=
  ∀ f, let cfg := defaultConfig f
    (∀ (s : BitVec 2) (c : BitVec 1), commandWord cfg (.biasCom s c) =
      0x021#12 ||| (s.extractLsb' 1 1).setWidth 12 <<< 7 ||| (s.extractLsb' 0 1).setWidth 12 <<< 8
        ||| c.setWidth 12 <<< 10) ∧
    (∀ t : BitVec 3, commandWord cfg (.wdtTimebase t) =
      0x029#12 ||| (t.extractLsb' 0 1).setWidth 12 <<< 10
        ||| (t.extractLsb' 1 1).setWidth 12 <<< 9 ||| (t.extractLsb' 2 1).setWidth 12 <<< 8)

/-- R176: every command word, reversed, is the chip's own word `{0b100, C}`, whatever the table of
codes. -/
def Obligations.CommandWordRoundTrip : Prop :=
  ∀ (cfg : Config) (c : Command), cfg.pCmd = 0b001 →
    rev (commandWord cfg c) = 0b100#3 ++ datasheetCode cfg.cmdCode c ∧
    rev ((commandWord cfg c).extractLsb' 3 9) = datasheetCode cfg.cmdCode c

/-! ## The wires -/

/-- R141, R148: the pins after each edge of one bit. -/
def Obligations.BitWaveform : Prop :=
  ∀ (p : Pins) (d : Nat) (b : Bool),
    playPins p (txBit d b) =
      [⟨p.csN, false, p.data⟩] ++ List.replicate (d + 1) ⟨p.csN, false, b⟩
        ++ List.replicate (d + 1) ⟨p.csN, true, b⟩

/-- R144: inside a transaction `Tx(v, n)` gives the monitor exactly the bits `v[0]` to `v[n-1]`, one a
pulse, and leaves the clock high and the last bit on the line; `Tx(v, 0)` is empty. -/
def Obligations.TxPutsItsBitsOnTheWire : Prop :=
  ∀ (d : Nat) (v : TxValue) (n : Nat), n ≤ 16 →
    (∀ (m : Monitor) (bits : List Bool), m.current = some bits → m.last.csN = false →
      (programCycles m.last (tx d v n)).foldl Monitor.see m =
        { m with last := finalPins m.last (tx d v n), current := some (bits ++ wireBits v n) }) ∧
    (∀ p : Pins, 1 ≤ n → finalPins p (tx d v n) = ⟨p.csN, true, v.getLsbD (n - 1)⟩) ∧
    tx d v 0 = []

/-- R145: the bits of `v` at positions `n` and above have no effect. -/
def Obligations.HighBitsAreNeverSent : Prop :=
  ∀ (d : Nat) (v v' : TxValue) (n : Nat), (∀ i, i < n → v.getLsbD i = v'.getLsbD i) →
    tx d v n = tx d v' n

/-- R147: the concatenation law. -/
def Obligations.TxConcatenation : Prop :=
  ∀ (d : Nat) (a b : TxValue) (m n : Nat), a.toNat < 2 ^ m → m + n ≤ 16 →
    tx d a m ++ tx d b n = tx d (a ||| b <<< m) (m + n)

/-- R162: `SendCmd(code)` lasts `38 + 26D` edges and is one transaction of the 12 bits of `code`: for a
command word, 1, 0, 0, then the datasheet code from bit 8 to bit 0; a receiver tells a command
transaction by these and reads the one word (R80). -/
def Obligations.SendCmdIsOneTransaction : Prop :=
  ∀ (d : Nat) (code : BitVec 12),
    progEdges (sendCmd d code) = 38 + 26 * d ∧
    (∀ p : Pins, p.atRest = true →
      monitor p (programCycles p (sendCmd d code)) =
        ⟨⟨true, true, code.getLsbD 11⟩, none, [⟨wireBits code 12, false⟩], 0⟩) ∧
    (∀ c : DatasheetCode,
      wireBits (commandCode 0b001 c) 12 = [true, false, false] ++ (wireBits c 9).reverse ∧
      ∀ cut, let t : Transaction := ⟨wireBits (commandCode 0b001 c) 12, cut⟩
        t.kind = some .command ∧ t.words = some [.wire12 (commandCode 0b001 c)])

/-- R300: the exact lengths of the programs. -/
def Obligations.BusProgramLengths : Prop :=
  ∀ (cfg : Config) (w0 w1 : TxValue), let d := delayCycles cfg
    progEdges (beginOps d) = 1 + d ∧ progEdges (endOps d) = 1 + d ∧
    (∀ v n, progEdges (tx d v n) = n * (3 + 2 * d)) ∧
    progEdges (refreshProg cfg w0 w1) = 125 + 84 * d ∧
    progEdges (initProg cfg) = 228 + 156 * d

/-- R123, R124: the pins of a `Begin` and of an `End`, each `1 + D` edges long, with `data`
unchanged. -/
def Obligations.BracketWaveform : Prop :=
  ∀ (p : Pins) (d : Nat),
    playPins p (beginOps d) = List.replicate (1 + d) ⟨false, true, p.data⟩ ∧
    playPins p (endOps d) = List.replicate (1 + d) ⟨true, true, p.data⟩ ∧
    progEdges (beginOps d) = 1 + d ∧ progEdges (endOps d) = 1 + d

/-- R246: between two commands `cs_n` is high for exactly `D + 1` cycles. -/
def Obligations.GapBetweenTransactions : Prop :=
  ∀ (p : Pins) (d : Nat),
    playPins p (endOps d ++ beginOps d) =
      List.replicate (d + 1) ⟨true, true, p.data⟩ ++ List.replicate (d + 1) ⟨false, true, p.data⟩

/-- R126, R295, R5: a delay is at least one edge, lasts at least 125 microseconds of a positive
frequency, and by default is the least such number of edges. -/
def Obligations.DelayIsNotBelowTheDesignValue : Prop :=
  ∀ c : Config,
    0 < c.fClk.val ∧ 1 ≤ delayCycles c ∧ 125 * c.fClk.val ≤ 1000000 * delayCycles c ∧
    (c.delayMargin = 0 → 1000000 * (delayCycles c - 1) < 125 * c.fClk.val)

/-! ## Glyphs -/

/-- R225: the glyph table of the default wiring, in both orientations, blank outside 0 to 9. -/
def Obligations.GlyphTable : Prop :=
  ∀ (c : Config) (d : Byte), c.segBit = defaultSegBits → c.digitSegs = defaultDigitSegs →
    (c.orientation = .normal → glyph c d =
      [0x3F#8, 0x06, 0x5B, 0x4F, 0x66, 0x6D, 0x7D, 0x07, 0x7F, 0x6F].getD d.toNat 0) ∧
    (c.orientation = .rotated180 → glyph c d =
      [0x3F#8, 0x30, 0x5B, 0x79, 0x74, 0x6D, 0x6F, 0x38, 0x7F, 0x7D].getD d.toNat 0)

/-- R221, R223, R224, R228: in every build wired one bit per segment, a glyph sets exactly the bits of
the panel's segments that show the digit, never the decimal point's, and is blank outside 0 to 9. -/
def Obligations.GlyphLightsExactlyItsSegments : Prop :=
  ∀ (c : Config) (d : Byte), c.wf = true →
    (∀ k : Fin 8, (glyph c d).getLsbD k = true ↔
      ∃ segs, c.digitSegs[d.toNat]? = some segs ∧
        ∃ s ∈ litSegments segs, segmentBit c.segBit (panelSegment c.orientation s) = k) ∧
    (glyph c d).getLsbD c.segBit.dp = false ∧
    (9 < d.toNat → glyph c d = 0)

/-! ## Reset -/

/-- R290: a reset edge gives every field its reset value of R35, whatever the state was and whatever
else is on the ports; while `rst = 1`, `req_ready = 0`. -/
def Obligations.ResetEdge : Prop :=
  ∀ (s : State) (p : Ports) (rest : List Stimulus), s.inputs = .edge p :: rest → p.rst = true →
    step s = .next
      { pins := ⟨true, true, false⟩, mem := [], istate := .linesConfigured, ctl := .idle,
        curOp := .none, prog := [], fault := false, cause := .none, inputs := rest,
        cfg := s.cfg } ∧
    s.reqReady p.rst = false

/-- R35: the reset values of the state and its bytes, of the state after reset and after every reset
edge, and of the realization's registers. -/
def Obligations.ResetValues : Prop :=
  let ok := fun s : State =>
    s.pins = ⟨true, true, false⟩ ∧ (∀ p : Position, s.byteAt p = 0) ∧
    s.istate = .linesConfigured ∧ s.ctl = .idle ∧ s.curOp = .none ∧ s.prog = [] ∧
    s.fault = false ∧ s.cause.code = 0
  ok State.reset ∧
  (∀ s : State, s.resetNext = true → ∃ t, step s = .next t ∧ ok t) ∧
  (∀ r : RegState, r.core.resetNext = true →
    ok r.step.core ∧ r.step.regs = ⟨.idle, 0, 0, 0, 0, 0⟩)

/-! ## The step -/

/-- R100, R102: in `IDLE` the step performs the instruction of the word it takes, a request from either
form of the inputs; and a wire word of the table, which is the model's own way in (log 3). -/
def Obligations.StepRunsTheDecodedInstruction : Prop :=
  ∀ (s : State) (rest : List Stimulus), s.ctl = .idle →
    (∀ r, s.inputs = .present r :: rest →
      step s = exec (decodeRequest r) { s with inputs := rest }) ∧
    (∀ p, s.inputs = .edge p :: rest → p.rst = false → p.reqValid = true →
      step s = exec (decodeRequest p.request) { s with inputs := rest }) ∧
    (∀ w i, s.inputs = .wire w :: rest → decodeWire w = .ok i →
      step s = exec i { s with inputs := rest })

/-- An opcode-table word put where the step takes its next instruction from is what the step runs. -/
def Obligations.FetchedWordIsRun : Prop :=
  ∀ (s : State) (nbits w : Nat) (i : Instr), s.ctl = .idle → decodeTableWord nbits w = some i →
    step (s.withFetchWord nbits w) = exec i s

/-- R106: in `IDLE` with no request, no field changes. -/
def Obligations.IdleWithoutRequestChangesNothing : Prop :=
  ∀ s : State, s.ctl = .idle →
    (s.inputs = [] → step s = .next s) ∧
    (∀ p rest, s.inputs = .edge p :: rest → p.rst = false → p.reqValid = false →
      step s = .next { s with inputs := rest })

/-- R101: `req_ready`; a request on the ports is accepted exactly when it is 1, and presented while it
is 0 it changes nothing: the edge is as if none had been presented. -/
def Obligations.RequestWhileNotReadyChangesNothing : Prop :=
  ∀ s : State, (∀ rst, s.reqReady rst = true ↔ s.ctl = .idle ∧ rst = false) ∧
    ∀ (p : Ports) (rest : List Stimulus), p.reqValid = true →
      (s.reqReady p.rst = true → step { s with inputs := .edge p :: rest } =
        exec (decodeRequest p.request) { s with inputs := rest }) ∧
      (s.reqReady p.rst = false → step { s with inputs := .edge p :: rest } =
        step { s with inputs := .edge { p with reqValid := false } :: rest })

/-- R101, R112: outside `IDLE` a request the host holds changes nothing and is still presented after
the edge; that the inputs hold it so is the model's (log 2). -/
def Obligations.HeldRequestWaits : Prop :=
  ∀ (s : State) (r : Request) (rest : List Stimulus) (t : State), s.ctl ≠ .idle →
    (step { s with inputs := .present r :: rest } = .next t ↔
      ∃ t', step { s with inputs := .edge .quiet :: rest } = .next t' ∧
        t = { t' with inputs := .present r :: rest })

/-- R104, R105: one edge in `BUSY` runs the head of the program; the edge that empties it completes the
request, and an INIT's completion configures the chip (R243). -/
def Obligations.BusyEdgeRunsTheHead : Prop :=
  ∀ s : State, s.ctl = .busy → s.resetNext = false → ∃ rest,
    (∀ u l, s.prog = .act u :: l → l ≠ [] →
      step s = .next { s with pins := u.apply s.pins, prog := l, inputs := rest }) ∧
    (∀ u, s.prog = [.act u] →
      step s = .next { s with
        pins := u.apply s.pins, prog := [], inputs := rest, ctl := .idle, curOp := .none
        istate := if s.curOp = .init then .chipConfigured else s.istate }) ∧
    (∀ k l, s.prog = .wait k :: l → 1 < k →
      step s = .next { s with prog := .wait (k - 1) :: l, inputs := rest }) ∧
    (∀ k l, s.prog = .wait k :: l → k ≤ 1 → l ≠ [] →
      step s = .next { s with prog := l, inputs := rest }) ∧
    (∀ k, s.prog = [.wait k] → k ≤ 1 →
      step s = .next { s with
        prog := [], inputs := rest, ctl := .idle, curOp := .none
        istate := if s.curOp = .init then .chipConfigured else s.istate })

/-- R107: in `FAULTED` no field changes until reset, and no request is accepted. -/
def Obligations.FaultedHoldsUntilReset : Prop :=
  ∀ s : State, s.ctl = .faulted → s.resetNext = false →
    (∃ rest, step s = .next { s with inputs := rest }) ∧ (∀ rst, s.reqReady rst = false) ∧
    s.accepts = none

/-- R33: the bits of the status word, and its value after a reset. -/
def Obligations.StatusWordFields : Prop :=
  (∀ (s : State) (rst : Bool), let w := s.statusWord rst
    (w.getLsbD 0 = true ↔ s.ctl = .idle ∧ rst = false) ∧
    (w.getLsbD 1 = true ↔ s.ctl = .busy) ∧
    (w.getLsbD 2 = true ↔ s.istate = .chipConfigured) ∧
    (w.getLsbD 3 = s.fault) ∧ (w.extractLsb' 4 3 = s.cause.code) ∧ s.cause.code.toNat < 4) ∧
  ∀ c l, (State.resetOf c l).statusWord false = 1 ∧ (State.resetOf c l).statusWord true = 0

/-! ## The host requests -/

/-- R201: `SETMEM p, v`, the request of opcode 010, writes `v` to position `p`, and nothing else
changes. -/
def Obligations.SetmemWritesItsByte : Prop :=
  ∀ (p : Position) (v : Byte) (s : State),
    decodeRequest (Request.ofFields 0b010 p v) = .setmem p v ∧
    ∃ t, exec (.setmem p v) s = .next t ∧ t.byteAt p = v ∧
      (∀ a, a ≠ p.toNat → Memory.read t.mem a = Memory.read s.mem a) ∧ t = { s with mem := t.mem }

/-- R226: `WRDIG p, d`, the request of opcode 011, writes `glyph(d)` to position `p`, and nothing else
changes. -/
def Obligations.WrdigWritesItsGlyph : Prop :=
  ∀ (p : Position) (d : Byte) (s : State),
    decodeRequest (Request.ofFields 0b011 p d) = .wrdig p d ∧
    ∃ t, exec (.wrdig p d) s = .next t ∧ t.byteAt p = glyph s.cfg d ∧
      (∀ a, a ≠ p.toNat → Memory.read t.mem a = Memory.read s.mem a) ∧ t = { s with mem := t.mem }

/-- R227: `WRDIGS d`, the request of opcode 100 whatever its `pos`, writes `glyph(d)` to all four
positions at one edge, and nothing else changes. -/
def Obligations.WrdigsWritesFourGlyphs : Prop :=
  ∀ (p : Position) (d : Byte) (s : State),
    decodeRequest (Request.ofFields 0b100 p d) = .wrdigs d ∧
    ∃ t, exec (.wrdigs d) s = .next t ∧ (∀ q : Position, t.byteAt q = glyph s.cfg d) ∧
      (∀ a, 4 ≤ a → Memory.read t.mem a = Memory.read s.mem a) ∧ t = { s with mem := t.mem }

/-- R242, R241, R103: before the chip is configured, `INIT` launches the commands of `INIT_SEQ`, each
in its transaction, and changes nothing else; after, it raises `REINIT`. The default `INIT_SEQ` is the
six commands of R241. -/
def Obligations.InitLaunchesItsSequence : Prop :=
  (∀ s : State,
    (s.istate = .linesConfigured → exec .init s = .next { s with
      ctl := .busy, curOp := .init
      prog := s.cfg.initSeq.toList.flatMap
        fun c => sendCmd (delayCycles s.cfg) (commandWord s.cfg c) }) ∧
    (s.istate = .chipConfigured → exec .init s = .next { s with
      ctl := .faulted, fault := true, cause := .reinit })) ∧
  ∀ f, (defaultConfig f).initSeq.toList =
    [.normalMode, .oscOn, .oscRc, .biasOn, .biasCom 2 0, .wdtClear]

/-- R203, R52, R103: once the chip is configured, `REFRESH` launches one transaction of `WR0` and the
two words of the memory, low byte first in the default byte order, and changes nothing else; in a
big-endian build (log 20) the high byte comes first. -/
def Obligations.RefreshLaunchesItsTransaction : Prop :=
  ∀ s : State, s.istate = .chipConfigured →
    let d := delayCycles s.cfg
    let launched := fun w0 w1 : TxValue => Host.Outcome.next (φ := Fault) (ρ := Refusal)
      { s with
        ctl := .busy, curOp := .refresh
        prog := beginOps d ++ (tx d (s.cfg.wr0.setWidth 16) 9 ++ tx d w0 16 ++ tx d w1 16)
          ++ endOps d }
    (s.cfg.wordOrder = .little → exec .refresh s =
      launched (s.byteAt 1 ++ s.byteAt 0) (s.byteAt 3 ++ s.byteAt 2)) ∧
    (s.cfg.wordOrder = .big → exec .refresh s =
      launched (s.byteAt 0 ++ s.byteAt 1) (s.byteAt 2 ++ s.byteAt 3)) ∧
    ∀ f, (defaultConfig f).wordOrder = .little

/-- R202: `REFRESH` before initialization raises `NOT_INITIALIZED` (code 2) and sends nothing. -/
def Obligations.RefreshBeforeInitFaults : Prop :=
  ∀ s : State, s.istate ≠ .chipConfigured →
    exec .refresh s = .next { s with ctl := .faulted, fault := true, cause := .notInitialized } ∧
    FaultCause.notInitialized.code = 2

/-- R73: accepting a request with a reserved opcode raises `ILLEGAL_OP` (code 1) and performs nothing
else. -/
def Obligations.ReservedOpcodesRaiseIllegalOp : Prop :=
  ∀ s : State, let t := { s with ctl := .faulted, fault := true, cause := .illegalOp }
    exec .reserved000 s = .next t ∧ exec .reserved110 s = .next t ∧
    exec .reserved111 s = .next t ∧ FaultCause.illegalOp.code = 1 ∧
    ∀ r : Request, r.op = 0b000 ∨ r.op = 0b110 ∨ r.op = 0b111 → exec (decodeRequest r) s = .next t

/-! ## The wire words -/

/-- R164 to R171, R174: in every build each command without operands hands `SendCmd` of its word to
the sequencer and changes no other field, and with the default codes the words are those of R163; that
the sequencer takes it after what it still has to run is the model's (log 3), the codes are log 8. -/
def Obligations.FixedCommandsAreSent : Prop :=
  ∀ s : State,
    let word := fun c : Command => commandWord s.cfg c
    let sent := fun c : Command => Host.Outcome.next (φ := Fault) (ρ := Refusal)
      { s with ctl := .busy, prog := s.prog ++ sendCmd (delayCycles s.cfg) (word c) }
    (exec .normalMode s = sent .normalMode ∧ exec .testMode s = sent .testMode ∧
      exec .oscOn s = sent .oscOn ∧ exec .oscRc s = sent .oscRc ∧ exec .oscXtal s = sent .oscXtal ∧
      exec .oscExt s = sent .oscExt ∧ exec .biasOn s = sent .biasOn ∧
      exec .biasOff s = sent .biasOff ∧ exec .wdtClear s = sent .wdtClear) ∧
    (s.cfg.pCmd = 0b001 → s.cfg.cmdCode = defaultCodes →
      word .normalMode = 0x639 ∧ word .testMode = 0x039 ∧ word .oscOn = 0x401 ∧
      word .oscRc = 0x0C1 ∧ word .oscXtal = 0x141 ∧ word .oscExt = 0x1C1 ∧ word .biasOn = 0x601 ∧
      word .biasOff = 0x201 ∧ word .wdtClear = 0x381)

/-- R172, R173, R175: the two commands with operands do so for every operand, the selector 3 among
them, in every build; the place after what still has to run is the model's (log 3). -/
def Obligations.OperandCommandsAreSent : Prop :=
  ∀ s : State,
    let sent := fun code : BitVec 12 => Host.Outcome.next (φ := Fault) (ρ := Refusal)
      { s with ctl := .busy, prog := s.prog ++ sendCmd (delayCycles s.cfg) code }
    (∀ sel c, exec (.biasCom sel c) s = sent (commandWord s.cfg (.biasCom sel c))) ∧
    (∀ t, exec (.wdtTimebase t) s = sent (commandWord s.cfg (.wdtTimebase t)))

/-- R203, R204, R79: inside an open transaction the two words of a refresh are their `Tx`; with none
open they stand in a transaction of their own, which is the model's choice (log 3, 4). No other field
changes. -/
def Obligations.RefreshWordsAreSent : Prop :=
  ∀ (s : State) (w : BitVec 16),
    let d := delayCycles s.cfg
    let sent := fun l : List MicroOp => Host.Outcome.next (φ := Fault) (ρ := Refusal)
      { s with ctl := .busy, prog := s.prog ++ l }
    ((finalPins s.pins s.prog).csN = false →
      exec .writeAddr0 s = sent (tx d (s.cfg.wr0.setWidth 16) 9) ∧
      exec (.data16 w) s = sent (tx d w 16)) ∧
    ((finalPins s.pins s.prog).csN = true →
      exec .writeAddr0 s = sent (beginOps d ++ tx d (s.cfg.wr0.setWidth 16) 9 ++ endOps d) ∧
      exec (.data16 w) s = sent (beginOps d ++ tx d w 16 ++ endOps d))

/-- R242: an INIT is the six commands of `INIT_SEQ`, one after the other. -/
def Obligations.InitIsItsSixCommands : Prop :=
  ∀ s : State, s.istate = .linesConfigured →
    exec .init s =
      execSeq (s.cfg.initSeq.toList.map commandInstr) { s with ctl := .busy, curOp := .init, prog := [] }

/-- R203: a REFRESH is a `Begin`, the write-address word, the two data words and an `End`; a receiver
tells a write transaction by its first three bits 1, 0, 1 and reads these three words (R80). -/
def Obligations.RefreshIsItsThreeWords : Prop :=
  ∀ s : State, s.istate = .chipConfigured →
    ∃ t, execSeq [.writeAddr0, .data16 (s.word 0), .data16 (s.word 1)]
        { s with
          ctl := .busy, curOp := .refresh, prog := beginOps (delayCycles s.cfg) } = .next t ∧
      exec .refresh s = .next { t with prog := t.prog ++ endOps (delayCycles s.cfg) } ∧
      (s.cfg.wr0.extractLsb' 0 3 = 0b101 → ∀ cut, let r : Transaction := ⟨refreshBits s, cut⟩
        r.kind = some .write ∧
        r.words = some [.wire9 s.cfg.wr0, .wire16 (s.word 0), .wire16 (s.word 1)])

/-! ## Runs -/

/-- R104, R105, R110: a bus program, once begun, runs to its end whatever requests wait: the pins move
as its micro-ops say, edge by edge, and after exactly its length the block is `IDLE` again with nothing
else changed. -/
def Obligations.BusProgramRunsToItsEnd : Prop :=
  ∀ s : State, s.ctl = .busy → s.prog ≠ [] → delaysOk (delayCycles s.cfg) s.prog = true →
    s.requestsOnly = true →
    trace (progEdges s.prog) s = programCycles s.pins s.prog ∧
    core.run (progEdges s.prog) s = .next { s with
      pins := finalPins s.pins s.prog, prog := [], ctl := .idle, curOp := .none
      istate := if s.curOp = .init then .chipConfigured else s.istate } ∧
    ∀ k, k < progEdges s.prog → ∃ t, core.run k s = .next t ∧
      t.ctl = .busy ∧ t.istate = s.istate ∧ t.mem = s.mem ∧ t.inputs = s.inputs

/-- R242, R243, R246, R247: an INIT presented in `IDLE` puts exactly six transactions on the bus, the
words of `INIT_SEQ` in order, each complete, with no clash; it takes one edge to accept and
`228 + 156D` to run, and the chip counts as configured exactly from its completing edge on. -/
def Obligations.InitRunsItsSixTransactions : Prop :=
  ∀ (s : State) (r : Request) (rest : List Stimulus), s.ctl = .idle → s.istate = .linesConfigured →
    s.pins.atRest = true → s.inputs = .present r :: rest → r.op = 0b001 →
    ({ s with inputs := rest }).requestsOnly = true →
    let n := 1 + (228 + 156 * delayCycles s.cfg)
    core.run n s = .next { s with
      pins := ⟨true, true, (commandWord s.cfg s.cfg.initSeq[5]).getLsbD 11⟩, prog := [], ctl := .idle
      curOp := .none, istate := .chipConfigured, inputs := rest } ∧
    monitor s.pins (trace n s) =
      ⟨⟨true, true, (commandWord s.cfg s.cfg.initSeq[5]).getLsbD 11⟩, none,
        s.cfg.initSeq.toList.map (fun c => ⟨wireBits (commandWord s.cfg c) 12, false⟩), 0⟩ ∧
    (∀ k, 1 ≤ k → k < n → ∃ t, core.run k s = .next t ∧ t.busy = true ∧ t.inited = false)

/-- R203, R205, R206, R207, R208, R53: a REFRESH presented in `IDLE` once the chip is configured puts
exactly one transaction on the bus, `WR0` and then the 32 bits of the memory, in the order of R53 in a
little-endian build and with the bytes of each pair exchanged in a big-endian one (log 20); it takes
one edge to accept and `125 + 84D` to run, and changes neither the memory nor the initialization
state. -/
def Obligations.RefreshRunsItsTransaction : Prop :=
  ∀ (s : State) (r : Request) (rest : List Stimulus), s.ctl = .idle → s.istate = .chipConfigured →
    s.pins.atRest = true → s.inputs = .present r :: rest → r.op = 0b101 →
    ({ s with inputs := rest }).requestsOnly = true →
    let n := 1 + (125 + 84 * delayCycles s.cfg)
    core.run n s = .next { s with
      pins := ⟨true, true, (Memory.read s.mem (sentByte s.cfg.wordOrder 3)).getLsbD 7⟩
      prog := [], ctl := .idle, curOp := .none, inputs := rest } ∧
    monitor s.pins (trace n s) =
      ⟨⟨true, true, (Memory.read s.mem (sentByte s.cfg.wordOrder 3)).getLsbD 7⟩, none,
        [⟨refreshBits s, false⟩], 0⟩ ∧
    (s.cfg.wordOrder = .little → refreshBits s = wireBits s.cfg.wr0 9 ++
      (List.range 32).map fun j => (Memory.read s.mem (j / 8)).getLsbD (j % 8))

/-! ## Whole-machine rules -/

/-- Every step keeps the invariant of the block. -/
def Obligations.StepKeepsInvariant : Prop :=
  ∀ s t : State, s.Inv → step s = .next t → t.Inv

/-- The invariant holds after every reset edge, of every build, and of the reset state. -/
def Obligations.ResetHasInvariant : Prop :=
  (∀ (c : Config) (l : List Stimulus), (State.resetOf c l).Inv) ∧ State.reset.Inv

/-- R178, R205: while only a host acts on the block, its program is always what is left of an INIT's or
of a REFRESH's, the REFRESH's with the words the memory holds now. -/
def Obligations.StepKeepsHostInvariant : Prop :=
  ∀ s t : State, s.HostInv → step s = .next t → t.HostInv

/-- The host invariant holds after a reset edge, whatever a host has in store. -/
def Obligations.ResetHasHostInvariant : Prop :=
  (∀ (c : Config) (l : List Stimulus), l.all Stimulus.ofHost = true →
    (State.resetOf c l).HostInv) ∧ State.reset.HostInv

/-- The machine never stops on a host: from a state with the invariant, a step answers a next state. -/
def Obligations.HostNeverStopsTheMachine : Prop :=
  ∀ s : State, s.Inv → s.hostDriven = true → ∃ t, step s = .next t ∧ t.hostDriven = true

/-- R25, R243: the initialization state changes only by a reset, or at the completing edge of an
INIT. -/
def Obligations.IstateChangesOnlyByInitOrReset : Prop :=
  ∀ s t : State, step s = .next t → t.istate ≠ s.istate →
    (s.resetNext = true ∧ t.istate = .linesConfigured) ∨
    (s.ctl = .busy ∧ s.curOp = .init ∧ t.ctl = .idle ∧ t.istate = .chipConfigured)

/-- R24, R205: the display memory changes only by a reset or at the acceptance of a SETMEM, a WRDIG or a
WRDIGS. -/
def Obligations.MemoryChangesOnlyByItsRequests : Prop :=
  ∀ s t : State, step s = .next t → t.mem ≠ s.mem →
    s.resetNext = true ∨
    ∃ r, s.accepts = some r ∧
      ((∃ p v, decodeRequest r = .setmem p v) ∨ (∃ p d, decodeRequest r = .wrdig p d) ∨
        (∃ d, decodeRequest r = .wrdigs d))

/-- R23, R104: a pin changes only by a reset or by the act at the head of a running program. -/
def Obligations.PinsChangeOnlyByActs : Prop :=
  ∀ s t : State, step s = .next t → t.pins ≠ s.pins →
    s.resetNext = true ∨
    ∃ u l, s.ctl = .busy ∧ s.prog = .act u :: l ∧ t.pins = u.apply s.pins

/-- R260, R262, R265: a fault is entered only when an accepted request breaks the host contract; it
changes the three fields of R262 and nothing else. -/
def Obligations.FaultsOnlyFromContractViolations : Prop :=
  ∀ s t : State, step s = .next t → s.ctl ≠ .faulted → t.ctl = .faulted →
    s.ctl = .idle ∧ ∃ r rest, s.accepts = some r ∧
      t = { s with ctl := .faulted, fault := true, cause := t.cause, inputs := rest } ∧
      ((t.cause = .illegalOp ∧ (r.op = 0b000 ∨ r.op = 0b110 ∨ r.op = 0b111)) ∨
       (t.cause = .notInitialized ∧ r.op = 0b101 ∧ s.istate = .linesConfigured) ∨
       (t.cause = .reinit ∧ r.op = 0b001 ∧ s.istate = .chipConfigured))

/-- R263: a fault is left only by a reset edge, which clears it; a state in it does not end well. -/
def Obligations.FaultIsLeftOnlyByReset : Prop :=
  ∀ s : State, s.ctl = .faulted → s.endsWell = false ∧ ∀ t : State, step s = .next t →
    (s.resetNext = true ∧ t.ctl = .idle ∧ t.fault = false ∧ t.cause = .none) ∨
    (s.resetNext = false ∧ t.ctl = .faulted ∧ t.fault = s.fault ∧ t.cause = s.cause)

/-- R36: no step changes a build-time parameter. -/
def Obligations.ParametersNeverChange : Prop :=
  ∀ s t : State, step s = .next t → t.cfg = s.cfg

/-! ## The register realization -/

/-- R28, R143: one edge of the block in registers is one edge of the list form it stands for. -/
def Obligations.RealizationSimulatesTheListForm : Prop :=
  ∀ r : RegState, r.Ok → step r.listForm = .next r.step.listForm ∧ r.step.Ok

/-- R28: after a reset, whatever a host does, the block in registers has the same outputs as the list
form at every cycle. -/
def Obligations.RealizationDrivesTheSameOutputs : Prop :=
  ∀ (c : Config) (l : List Stimulus), l.all Stimulus.ofHost = true → ∀ (n : Nat) (rst : Bool),
    ∃ t, core.run n (State.resetOf c l) = .next t ∧
      (RegState.run n (RegState.resetOf c l)).core.outputs rst = t.outputs rst

/-! ## The output ports -/

/-- R38: the lines carry the pin registers, and the other ports the status (codes of R261). -/
def Obligations.OutputsAreDrivenByTheState : Prop :=
  ∀ (s : State) (rst : Bool), let o := s.outputs rst
    o.lcdCsN = s.pins.csN ∧ o.lcdWr = s.pins.wr ∧ o.lcdData = s.pins.data ∧
    (o.reqReady = true ↔ s.ctl = .idle ∧ rst = false) ∧ (o.busy = true ↔ s.ctl = .busy) ∧
    (o.inited = true ↔ s.istate = .chipConfigured) ∧ o.fault = s.fault ∧
    o.faultCause =
      match s.cause with
      | .none => 0
      | .illegalOp => 1
      | .notInitialized => 2
      | .reinit => 3
end

