-- ==== Sys2Proof/Laws/Bus.lean ====
section
/-! SUPPORT. The laws of micro-op programs: their length, the pins they leave, and how they join. -/

namespace Sys2Proof.Machine

@[simp] theorem progEdges_nil : progEdges [] = 0 := rfl

@[simp] theorem progEdges_cons (m : MicroOp) (l : List MicroOp) :
    progEdges (m :: l) = m.edges + progEdges l := by
  simp [progEdges]

@[simp] theorem progEdges_append (l m : List MicroOp) :
    progEdges (l ++ m) = progEdges l + progEdges m := by
  simp [progEdges]

@[simp] theorem edges_act (u : PinUpdate) : MicroOp.edges (.act u) = 1 := rfl

@[simp] theorem edges_wait (k : Nat) : MicroOp.edges (.wait k) = k := rfl

theorem finalPins_append (p : Pins) (l m : List MicroOp) :
    finalPins p (l ++ m) = finalPins (finalPins p l) m := by
  induction l generalizing p with
  | nil => rfl
  | cons x l ih => cases x <;> simp [finalPins, ih]

theorem playPins_append (p : Pins) (l m : List MicroOp) :
    playPins p (l ++ m) = playPins p l ++ playPins (finalPins p l) m := by
  induction l generalizing p with
  | nil => rfl
  | cons x l ih => cases x <;> simp [playPins, finalPins, ih]

theorem playPins_length (p : Pins) (l : List MicroOp) :
    (playPins p l).length = progEdges l := by
  induction l generalizing p with
  | nil => rfl
  | cons x l ih => cases x <;> simp [playPins, ih]; omega

theorem programCycles_append (p : Pins) (l m : List MicroOp) :
    programCycles p (l ++ m) = programCycles p l ++ programCycles (finalPins p l) m := by
  simp [programCycles, playPins_append]

/-- The pins after the head of a program has run for one edge. -/
def headPins (p : Pins) : List MicroOp → Pins
  | .act u :: _ => u.apply p
  | _ => p

/-- `Tx` of no bits is empty (R146). -/
@[simp] theorem tx_zero (d : Nat) (v : TxValue) : tx d v 0 = [] := rfl

/-- The last bit of a `Tx` goes out last. -/
theorem tx_succ (d : Nat) (v : TxValue) (n : Nat) :
    tx d v (n + 1) = tx d v n ++ txBit d (v.getLsbD n) := by
  simp [tx, List.range_succ]

/-- The first bit of a `Tx` goes out first, and the rest is the `Tx` of the shifted value (R143). -/
theorem tx_succ_shift (d : Nat) (v : TxValue) (n : Nat) :
    tx d v (n + 1) = txBit d (v.getLsbD 0) ++ tx d (v >>> 1) n := by
  simp only [tx, List.range_succ_eq_map, List.flatMap_cons, List.flatMap_map]
  congr 1
  refine List.flatMap_congr fun i _ => ?_
  simp [BitVec.getLsbD_ushiftRight, Nat.add_comm]

@[simp] theorem progEdges_txBit (d : Nat) (b : Bool) : progEdges (txBit d b) = 3 + 2 * d := by
  simp [txBit, clkLow, setData, clkHigh]; omega

/-- What one bit leaves on the pins. -/
@[simp] theorem finalPins_txBit (p : Pins) (d : Nat) (b : Bool) :
    finalPins p (txBit d b) = ⟨p.csN, true, b⟩ := rfl

@[simp] theorem finalPins_beginOps (p : Pins) (d : Nat) :
    finalPins p (beginOps d) = ⟨false, true, p.data⟩ := rfl

@[simp] theorem finalPins_endOps (p : Pins) (d : Nat) :
    finalPins p (endOps d) = ⟨true, true, p.data⟩ := rfl

/-- A `Tx` moves neither line of the bracket. -/
theorem finalPins_tx_csN (p : Pins) (d : Nat) (v : TxValue) (n : Nat) :
    (finalPins p (tx d v n)).csN = p.csN := by
  induction n with
  | zero => rfl
  | succ n ih => rw [tx_succ, finalPins_append, finalPins_txBit]; exact ih

theorem finalPins_tx_wr (p : Pins) (d : Nat) (v : TxValue) (n : Nat) (h : p.wr = true) :
    (finalPins p (tx d v n)).wr = true := by
  cases n with
  | zero => exact h
  | succ n => rw [tx_succ, finalPins_append, finalPins_txBit]

/-- Every delay is at least one cycle long (R126). -/
theorem one_le_delayCycles (c : Config) : 1 ≤ delayCycles c := by
  have h := c.fClk.pos
  unfold delayCycles designDelay
  omega

/-! ## What the monitor sees of a program -/

theorem monitor_fold_append (m : Monitor) (a b : List Cycle) :
    (a ++ b).foldl Monitor.see m = b.foldl Monitor.see (a.foldl Monitor.see m) :=
  List.foldl_append ..

/-- A cycle inside an open transaction: a rise of `wr` records the level of `data`. -/
theorem Monitor.see_inside (m : Monitor) (c : Cycle) {bits : List Bool}
    (hc : m.current = some bits) (h0 : m.last.csN = false) (h1 : c.pins.csN = false) :
    m.see c =
      { m with
        last := c.pins
        current := some (if m.rises c then bits ++ [c.pins.data] else bits) } := by
  unfold Monitor.see
  simp only [hc, h0, h1]
  cases m.rises c <;> simp

/-- The cycle that closes a transaction. -/
theorem Monitor.see_close (m : Monitor) (c : Cycle) {bits : List Bool}
    (hc : m.current = some bits) (h1 : c.pins.csN = true) (hw : m.last.wr = true) :
    m.see c =
      { m with last := c.pins, current := none, closed := m.closed ++ [⟨bits, c.reset⟩] } := by
  simp [Monitor.see, Monitor.rises, hc, h1, hw]

/-- The cycle that opens a transaction. -/
theorem Monitor.see_open (m : Monitor) (c : Cycle) (hc : m.current = none)
    (h0 : m.last.csN = true) (h1 : c.pins.csN = false) (hw : m.last.wr = true) :
    m.see c = { m with last := c.pins, current := some [] } := by
  simp [Monitor.see, Monitor.rises, hc, h0, h1, hw]

/-- A cycle with no transaction open. -/
theorem Monitor.see_outside (m : Monitor) (c : Cycle) (hc : m.current = none)
    (h0 : m.last.csN = true) (h1 : c.pins.csN = true) :
    m.see c = { m with last := c.pins } := by
  simp [Monitor.see, hc, h0, h1]

/-- A cycle in which the pins hold changes nothing. -/
theorem Monitor.see_hold (m : Monitor) {p : Pins} (hl : m.last = p)
    (h : m.current.isSome = true ↔ p.csN = false) : m.see ⟨p, false⟩ = m := by
  subst hl
  cases hc : m.current with
  | none =>
    have hcs : m.last.csN = true := by simpa [hc] using h
    rw [Monitor.see_outside m _ hc hcs hcs]
  | some bits =>
    have hcs : m.last.csN = false := by simpa [hc] using h
    rw [Monitor.see_inside m _ hc hcs hcs]
    have hr : m.rises ⟨m.last, false⟩ = false := by simp [Monitor.rises]
    rw [hr, if_neg Bool.false_ne_true, ← hc]

/-- Cycles in which the pins hold change nothing. -/
theorem Monitor.see_replicate (m : Monitor) (n : Nat) {p : Pins} (hl : m.last = p)
    (h : m.current.isSome = true ↔ p.csN = false) :
    (List.replicate n (⟨p, false⟩ : Cycle)).foldl Monitor.see m = m := by
  induction n with
  | zero => rfl
  | succ n ih => rw [List.replicate_succ, List.foldl_cons, Monitor.see_hold m hl h, ih]

/-- The cycles of a delay. -/
theorem programCycles_wait (p : Pins) (k : Nat) (l : List MicroOp) :
    programCycles p (.wait k :: l) = List.replicate k ⟨p, false⟩ ++ programCycles p l := by
  simp [programCycles, playPins]

/-- The cycle of an act. -/
theorem programCycles_act (p : Pins) (u : PinUpdate) (l : List MicroOp) :
    programCycles p (.act u :: l) = ⟨u.apply p, false⟩ :: programCycles (u.apply p) l := rfl

@[simp] theorem programCycles_nil (p : Pins) : programCycles p [] = [] := rfl

/-- What the monitor makes of one bit inside a transaction (R142). -/
theorem monitor_txBit (m : Monitor) (d : Nat) (b : Bool) {bits : List Bool}
    (hc : m.current = some bits) (h0 : m.last.csN = false) :
    (programCycles m.last (txBit d b)).foldl Monitor.see m =
      { m with last := ⟨false, true, b⟩, current := some (bits ++ [b]) } := by
  simp only [txBit, clkLow, setData, clkHigh, programCycles_act, programCycles_wait,
    programCycles_nil, PinUpdate.apply, Option.getD_some, Option.getD_none, h0, List.foldl_cons,
    List.foldl_append, List.append_nil]
  rw [Monitor.see_inside m ⟨⟨false, false, m.last.data⟩, false⟩ hc h0 rfl]
  simp only [Monitor.rises, Bool.and_false, Bool.false_eq_true, if_false]
  rw [Monitor.see_inside _ ⟨⟨false, false, b⟩, false⟩ rfl rfl rfl]
  simp only [Monitor.rises, Bool.and_false, Bool.false_eq_true, if_false]
  rw [Monitor.see_replicate _ d rfl (by simp)]
  rw [Monitor.see_inside _ ⟨⟨false, true, b⟩, false⟩ rfl rfl rfl]
  simp only [Monitor.rises, Bool.not_false, Bool.and_true, if_true]
  rw [Monitor.see_replicate _ d rfl (by simp)]

/-- What the monitor makes of a `Begin` from lines at rest (R123): a transaction opens. -/
theorem monitor_beginOps (m : Monitor) (d : Nat) (hc : m.current = none)
    (h0 : m.last.csN = true) (hw : m.last.wr = true) :
    (programCycles m.last (beginOps d)).foldl Monitor.see m =
      { m with last := ⟨false, true, m.last.data⟩, current := some [] } := by
  simp only [beginOps, beginAct, programCycles_act, programCycles_wait, programCycles_nil,
    PinUpdate.apply, Option.getD_some, Option.getD_none, List.foldl_cons, List.append_nil]
  rw [Monitor.see_open m _ hc h0 rfl hw, Monitor.see_replicate _ d rfl (by simp)]

/-- What the monitor makes of an `End` with the clock high (R124): the transaction closes. -/
theorem monitor_endOps (m : Monitor) (d : Nat) {bits : List Bool} (hc : m.current = some bits)
    (hw : m.last.wr = true) :
    (programCycles m.last (endOps d)).foldl Monitor.see m =
      { m with
        last := ⟨true, true, m.last.data⟩, current := none
        closed := m.closed ++ [⟨bits, false⟩] } := by
  simp only [endOps, endAct, programCycles_act, programCycles_wait, programCycles_nil,
    PinUpdate.apply, Option.getD_some, Option.getD_none, List.foldl_cons, List.append_nil]
  rw [Monitor.see_close m _ hc rfl hw, Monitor.see_replicate _ d rfl (by simp)]

end Sys2Proof.Machine
end

