-- ==== Sys2Proof/Laws/Memory.lean ====
section
/-! SUPPORT. The laws of the display memory: a read after a write, and the canonical form. -/

namespace Sys2Proof.Machine

theorem Memory.read_erase_self (m : List Host.Cell) (a : Nat) :
    Memory.read (Memory.erase m a) a = 0 := by
  induction m with
  | nil => rfl
  | cons c m ih =>
    obtain ⟨b, v⟩ := c
    by_cases h : b = a <;> simp [Memory.erase, Memory.read, h, ih]

theorem Memory.read_erase_ne (m : List Host.Cell) {a b : Nat} (h : b ≠ a) :
    Memory.read (Memory.erase m a) b = Memory.read m b := by
  induction m with
  | nil => rfl
  | cons c m ih =>
    obtain ⟨k, v⟩ := c
    by_cases hk : k = a
    · subst hk; simp [Memory.erase, Memory.read, ih, Ne.symm h]
    · by_cases hb : k = b
      · subst hb; simp [Memory.erase, Memory.read, hk]
      · simp [Memory.erase, Memory.read, hk, hb, ih]

theorem Memory.read_insert_self (m : List Host.Cell) (a : Nat) (v : Byte)
    (h : ∀ c ∈ m, c.1 ≠ a) : Memory.read (Memory.insert m a v) a = v := by
  induction m with
  | nil => simp [Memory.insert, Memory.read]
  | cons c m ih =>
    obtain ⟨k, w⟩ := c
    have hk : k ≠ a := h (k, w) (by simp)
    by_cases hlt : a < k
    · simp [Memory.insert, Memory.read, hlt]
    · simp only [Memory.insert, hlt, if_false, Memory.read, hk]
      exact ih fun c hc => h c (by simp [hc])

theorem Memory.read_insert_ne (m : List Host.Cell) {a b : Nat} (v : Byte) (h : b ≠ a) :
    Memory.read (Memory.insert m a v) b = Memory.read m b := by
  induction m with
  | nil => simp [Memory.insert, Memory.read, Ne.symm h]
  | cons c m ih =>
    obtain ⟨k, w⟩ := c
    by_cases hlt : a < k
    · simp [Memory.insert, Memory.read, hlt, Ne.symm h]
    · by_cases hk : k = b
      · subst hk; simp [Memory.insert, Memory.read, hlt]
      · simp [Memory.insert, Memory.read, hlt, hk, ih]

theorem Memory.erase_key_ne (m : List Host.Cell) (a : Nat) :
    ∀ c ∈ Memory.erase m a, c.1 ≠ a := by
  induction m with
  | nil => simp [Memory.erase]
  | cons c m ih =>
    obtain ⟨k, v⟩ := c
    by_cases hk : k = a
    · simpa [Memory.erase, hk] using ih
    · simpa [Memory.erase, hk] using ih

/-- A read after a write to the same address gives the value written. -/
@[simp] theorem Memory.read_write_self (m : List Host.Cell) (a : Nat) (v : Byte) :
    Memory.read (Memory.write m a v) a = v := by
  unfold Memory.write
  split
  · rename_i h; rw [Memory.read_erase_self, h]
  · exact Memory.read_insert_self _ _ _ (Memory.erase_key_ne m a)

/-- A write leaves every other address alone. -/
theorem Memory.read_write_ne (m : List Host.Cell) {a b : Nat} (v : Byte) (h : b ≠ a) :
    Memory.read (Memory.write m a v) b = Memory.read m b := by
  unfold Memory.write
  split
  · exact Memory.read_erase_ne m h
  · rw [Memory.read_insert_ne _ v h, Memory.read_erase_ne m h]

/-- Both cases of a read after a write. -/
theorem Memory.read_write (m : List Host.Cell) (a b : Nat) (v : Byte) :
    Memory.read (Memory.write m a v) b = if b = a then v else Memory.read m b := by
  by_cases h : b = a
  · subst h; simp
  · simp [h, Memory.read_write_ne m v h]

/-! ## The canonical form -/

theorem Memory.wfFrom_mono {lo lo' : Nat} (h : lo' ≤ lo) (m : List Host.Cell)
    (hm : Memory.wfFrom lo m = true) : Memory.wfFrom lo' m = true := by
  cases m with
  | nil => rfl
  | cons c m =>
    obtain ⟨a, v⟩ := c
    simp only [Memory.wfFrom, Bool.and_eq_true, decide_eq_true_eq] at hm ⊢
    exact ⟨⟨⟨by omega, hm.1.1.2⟩, hm.1.2⟩, hm.2⟩

theorem Memory.wfFrom_erase (lo : Nat) (m : List Host.Cell) (a : Nat)
    (h : Memory.wfFrom lo m = true) : Memory.wfFrom lo (Memory.erase m a) = true := by
  induction m generalizing lo with
  | nil => rfl
  | cons c m ih =>
    obtain ⟨b, v⟩ := c
    simp only [Memory.wfFrom, Bool.and_eq_true, decide_eq_true_eq] at h
    by_cases hb : b = a
    · simp only [Memory.erase, hb, if_true]
      exact Memory.wfFrom_mono (by omega) _ (ih _ h.2)
    · simp only [Memory.erase, hb, if_false, Memory.wfFrom, Bool.and_eq_true, decide_eq_true_eq]
      exact ⟨h.1, ih _ h.2⟩

theorem Memory.wfFrom_insert (lo : Nat) (m : List Host.Cell) (a : Nat) (v : Byte)
    (hlo : lo ≤ a) (ha : a < memBytes) (hv : v ≠ 0) (hk : ∀ c ∈ m, c.1 ≠ a)
    (h : Memory.wfFrom lo m = true) : Memory.wfFrom lo (Memory.insert m a v) = true := by
  induction m generalizing lo with
  | nil => simpa [Memory.insert, Memory.wfFrom, hlo, ha] using hv
  | cons c m ih =>
    obtain ⟨b, w⟩ := c
    have hb : b ≠ a := hk (b, w) (by simp)
    simp only [Memory.wfFrom, Bool.and_eq_true, decide_eq_true_eq] at h
    by_cases hlt : a < b
    · simp only [Memory.insert, hlt, if_true, Memory.wfFrom, Bool.and_eq_true,
        decide_eq_true_eq]
      refine ⟨⟨⟨hlo, ha⟩, by simpa using hv⟩, ⟨⟨by omega, h.1.1.2⟩, h.1.2⟩, h.2⟩
    · simp only [Memory.insert, hlt, if_false, Memory.wfFrom, Bool.and_eq_true,
        decide_eq_true_eq]
      exact ⟨h.1, ih _ (by omega) (fun c hc => hk c (by simp [hc])) h.2⟩

/-- A write inside the display memory keeps the canonical form. -/
theorem Memory.wf_write (m : List Host.Cell) (a : Nat) (v : Byte) (ha : a < memBytes)
    (h : Memory.wf m = true) : Memory.wf (Memory.write m a v) = true := by
  unfold Memory.write Memory.wf
  split
  · exact Memory.wfFrom_erase 0 m a h
  · rename_i hv
    exact Memory.wfFrom_insert 0 _ a v (by omega) ha hv (Memory.erase_key_ne m a)
      (Memory.wfFrom_erase 0 m a h)

theorem position_lt_memBytes (p : Position) : p.toNat < memBytes := p.isLt

theorem State.wf_writeByte (s : State) (p : Position) (v : Byte) (h : Memory.wf s.mem = true) :
    Memory.wf (s.writeByte p v).mem = true :=
  Memory.wf_write _ _ _ (position_lt_memBytes p) h

theorem State.wf_writeAll (s : State) (v : Byte) (h : Memory.wf s.mem = true) :
    Memory.wf (s.writeAll v).mem = true := by
  unfold State.writeAll
  iterate 4 apply State.wf_writeByte
  exact h

/-- The bytes after one byte is written. -/
theorem State.byteAt_writeByte (s : State) (p q : Position) (v : Byte) :
    (s.writeByte p v).byteAt q = if q = p then v else s.byteAt q := by
  simp only [State.byteAt, State.writeByte, Memory.read_write, BitVec.toNat_inj]

end Sys2Proof.Machine
end

