-- ==== Sys2Proof/Laws/PerInstr.lean ====
section
/-! SUPPORT. The fields of a request word, and the family `RoundTrip`: each instruction is decoded from
its word. -/

namespace Sys2Proof

/-! ## The fields of a request word (R70) -/

@[simp] theorem Request.op_ofFields (o : BitVec 3) (p : Position) (a : Byte) :
    (Request.ofFields o p a).op = o := by
  ext k hk
  rw [Request.op, Request.ofFields, BitVec.getElem_extractLsb', BitVec.getLsbD_append,
    BitVec.getLsbD_append, if_neg (by omega), if_neg (by omega),
    BitVec.getLsbD_eq_getElem (by omega)]
  congr 1
  omega

@[simp] theorem Request.pos_ofFields (o : BitVec 3) (p : Position) (a : Byte) :
    (Request.ofFields o p a).pos = p := by
  ext k hk
  rw [Request.pos, Request.ofFields, BitVec.getElem_extractLsb', BitVec.getLsbD_append,
    BitVec.getLsbD_append, if_neg (by omega), if_pos (by omega),
    BitVec.getLsbD_eq_getElem (by omega)]
  congr 1
  omega

@[simp] theorem Request.arg_ofFields (o : BitVec 3) (p : Position) (a : Byte) :
    (Request.ofFields o p a).arg = a := by
  ext k hk
  rw [Request.arg, Request.ofFields, BitVec.getElem_extractLsb', BitVec.getLsbD_append,
    if_pos (by omega), BitVec.getLsbD_eq_getElem (by omega)]
  congr 1
  omega

/-- A request word is made of its fields (R70). -/
@[simp] theorem Request.ofFields_fields (r : Request) :
    Request.ofFields r.op r.pos r.arg = r := by
  refine BitVec.eq_of_getLsbD_eq fun k hk => ?_
  simp only [Request.ofFields, Request.op, Request.pos, Request.arg, BitVec.getLsbD_append,
    BitVec.getLsbD_extractLsb']
  by_cases h8 : k < 8
  · simp [h8]
  · by_cases h10 : k - 8 < 2
    · simp [h8, h10, show 8 + (k - 8) = k by omega]
    · simp [h8, h10, show 10 + (k - 8 - 2) = k by omega, show k - 8 - 2 < 3 by omega]

end Sys2Proof

namespace Sys2Proof.Laws.RoundTrip

/-- Decoding the word of an instruction gives it back. -/
def Statement (i : Instr) : Prop := decode (encode i) = .ok i

theorem init : Statement (.init) := by
  simp [Statement, decode, encode, decodeRequest]

theorem setmem (p : Position) (v : Byte) : Statement (.setmem p v) := by
  simp [Statement, decode, encode, decodeRequest]

theorem wrdig (p : Position) (d : Byte) : Statement (.wrdig p d) := by
  simp [Statement, decode, encode, decodeRequest]

theorem wrdigs (d : Byte) : Statement (.wrdigs d) := by
  simp [Statement, decode, encode, decodeRequest]

theorem refresh : Statement (.refresh) := by
  simp [Statement, decode, encode, decodeRequest]

theorem reserved000 : Statement (.reserved000) := by
  simp [Statement, decode, encode, decodeRequest]

theorem reserved110 : Statement (.reserved110) := by
  simp [Statement, decode, encode, decodeRequest]

theorem reserved111 : Statement (.reserved111) := by
  simp [Statement, decode, encode, decodeRequest]

theorem normalMode : Statement .normalMode := rfl

theorem testMode : Statement .testMode := rfl

theorem oscOn : Statement .oscOn := rfl

theorem oscRc : Statement .oscRc := rfl

theorem oscXtal : Statement .oscXtal := rfl

theorem oscExt : Statement .oscExt := rfl

theorem biasOn : Statement .biasOn := rfl

theorem biasOff : Statement .biasOff := rfl

theorem wdtClear : Statement .wdtClear := rfl

theorem biasCom (s : BitVec 2) (c : BitVec 1) : Statement (.biasCom s c) := by
  revert s c
  unfold Statement
  decide

theorem wdtTimebase (t : BitVec 3) : Statement (.wdtTimebase t) := by
  revert t
  unfold Statement
  decide

theorem writeAddr0 : Statement .writeAddr0 := rfl

theorem data16 (w : BitVec 16) : Statement (.data16 w) := rfl

end Sys2Proof.Laws.RoundTrip
end

