-- ==== Sys2Proof/Laws/State.lean ====
section
/-! SUPPORT. One lemma per field of the state and per update: what each shared operation leaves in it. -/

namespace Sys2Proof.Machine

/-! ### `writeByte` writes one byte of the display memory -/

@[simp] theorem State.writeByte_pins (s : State) (p : Position) (v : Byte) :
    (s.writeByte p v).pins = s.pins := rfl

@[simp] theorem State.writeByte_mem (s : State) (p : Position) (v : Byte) :
    (s.writeByte p v).mem = Memory.write s.mem p.toNat v := rfl

@[simp] theorem State.writeByte_istate (s : State) (p : Position) (v : Byte) :
    (s.writeByte p v).istate = s.istate := rfl

@[simp] theorem State.writeByte_ctl (s : State) (p : Position) (v : Byte) :
    (s.writeByte p v).ctl = s.ctl := rfl

@[simp] theorem State.writeByte_curOp (s : State) (p : Position) (v : Byte) :
    (s.writeByte p v).curOp = s.curOp := rfl

@[simp] theorem State.writeByte_prog (s : State) (p : Position) (v : Byte) :
    (s.writeByte p v).prog = s.prog := rfl

@[simp] theorem State.writeByte_fault (s : State) (p : Position) (v : Byte) :
    (s.writeByte p v).fault = s.fault := rfl

@[simp] theorem State.writeByte_cause (s : State) (p : Position) (v : Byte) :
    (s.writeByte p v).cause = s.cause := rfl

@[simp] theorem State.writeByte_inputs (s : State) (p : Position) (v : Byte) :
    (s.writeByte p v).inputs = s.inputs := rfl

@[simp] theorem State.writeByte_cfg (s : State) (p : Position) (v : Byte) :
    (s.writeByte p v).cfg = s.cfg := rfl

/-! ### `writeAll` writes the four bytes -/

@[simp] theorem State.writeAll_pins (s : State) (v : Byte) :
    (s.writeAll v).pins = s.pins := rfl

@[simp] theorem State.writeAll_mem (s : State) (v : Byte) :
    (s.writeAll v).mem = Memory.write (Memory.write (Memory.write (Memory.write s.mem 0 v) 1 v) 2 v) 3 v := rfl

@[simp] theorem State.writeAll_istate (s : State) (v : Byte) :
    (s.writeAll v).istate = s.istate := rfl

@[simp] theorem State.writeAll_ctl (s : State) (v : Byte) :
    (s.writeAll v).ctl = s.ctl := rfl

@[simp] theorem State.writeAll_curOp (s : State) (v : Byte) :
    (s.writeAll v).curOp = s.curOp := rfl

@[simp] theorem State.writeAll_prog (s : State) (v : Byte) :
    (s.writeAll v).prog = s.prog := rfl

@[simp] theorem State.writeAll_fault (s : State) (v : Byte) :
    (s.writeAll v).fault = s.fault := rfl

@[simp] theorem State.writeAll_cause (s : State) (v : Byte) :
    (s.writeAll v).cause = s.cause := rfl

@[simp] theorem State.writeAll_inputs (s : State) (v : Byte) :
    (s.writeAll v).inputs = s.inputs := rfl

@[simp] theorem State.writeAll_cfg (s : State) (v : Byte) :
    (s.writeAll v).cfg = s.cfg := rfl

/-! ### `launch` starts a bus program -/

@[simp] theorem State.launch_pins (s : State) (o : CurOp) (l : List MicroOp) :
    (s.launch o l).pins = s.pins := rfl

@[simp] theorem State.launch_mem (s : State) (o : CurOp) (l : List MicroOp) :
    (s.launch o l).mem = s.mem := rfl

@[simp] theorem State.launch_istate (s : State) (o : CurOp) (l : List MicroOp) :
    (s.launch o l).istate = s.istate := rfl

@[simp] theorem State.launch_ctl (s : State) (o : CurOp) (l : List MicroOp) :
    (s.launch o l).ctl = .busy := rfl

@[simp] theorem State.launch_curOp (s : State) (o : CurOp) (l : List MicroOp) :
    (s.launch o l).curOp = o := rfl

@[simp] theorem State.launch_prog (s : State) (o : CurOp) (l : List MicroOp) :
    (s.launch o l).prog = l := rfl

@[simp] theorem State.launch_fault (s : State) (o : CurOp) (l : List MicroOp) :
    (s.launch o l).fault = s.fault := rfl

@[simp] theorem State.launch_cause (s : State) (o : CurOp) (l : List MicroOp) :
    (s.launch o l).cause = s.cause := rfl

@[simp] theorem State.launch_inputs (s : State) (o : CurOp) (l : List MicroOp) :
    (s.launch o l).inputs = s.inputs := rfl

@[simp] theorem State.launch_cfg (s : State) (o : CurOp) (l : List MicroOp) :
    (s.launch o l).cfg = s.cfg := rfl

/-! ### `emit` adds micro-ops -/

@[simp] theorem State.emit_pins (s : State) (l : List MicroOp) :
    (s.emit l).pins = s.pins := rfl

@[simp] theorem State.emit_mem (s : State) (l : List MicroOp) :
    (s.emit l).mem = s.mem := rfl

@[simp] theorem State.emit_istate (s : State) (l : List MicroOp) :
    (s.emit l).istate = s.istate := rfl

@[simp] theorem State.emit_ctl (s : State) (l : List MicroOp) :
    (s.emit l).ctl = .busy := rfl

@[simp] theorem State.emit_curOp (s : State) (l : List MicroOp) :
    (s.emit l).curOp = s.curOp := rfl

@[simp] theorem State.emit_prog (s : State) (l : List MicroOp) :
    (s.emit l).prog = s.prog ++ l := rfl

@[simp] theorem State.emit_fault (s : State) (l : List MicroOp) :
    (s.emit l).fault = s.fault := rfl

@[simp] theorem State.emit_cause (s : State) (l : List MicroOp) :
    (s.emit l).cause = s.cause := rfl

@[simp] theorem State.emit_inputs (s : State) (l : List MicroOp) :
    (s.emit l).inputs = s.inputs := rfl

@[simp] theorem State.emit_cfg (s : State) (l : List MicroOp) :
    (s.emit l).cfg = s.cfg := rfl

/-! ### `complete` ends a bus program -/

@[simp] theorem State.complete_pins (s : State) :
    (s.complete).pins = s.pins := rfl

@[simp] theorem State.complete_mem (s : State) :
    (s.complete).mem = s.mem := rfl

@[simp] theorem State.complete_istate (s : State) :
    (s.complete).istate = if s.curOp = .init then .chipConfigured else s.istate := rfl

@[simp] theorem State.complete_ctl (s : State) :
    (s.complete).ctl = .idle := rfl

@[simp] theorem State.complete_curOp (s : State) :
    (s.complete).curOp = .none := rfl

@[simp] theorem State.complete_prog (s : State) :
    (s.complete).prog = [] := rfl

@[simp] theorem State.complete_fault (s : State) :
    (s.complete).fault = s.fault := rfl

@[simp] theorem State.complete_cause (s : State) :
    (s.complete).cause = s.cause := rfl

@[simp] theorem State.complete_inputs (s : State) :
    (s.complete).inputs = s.inputs := rfl

@[simp] theorem State.complete_cfg (s : State) :
    (s.complete).cfg = s.cfg := rfl

/-! ### `raiseFault` takes a fault -/

@[simp] theorem State.raiseFault_pins (s : State) (c : FaultCause) :
    (s.raiseFault c).pins = s.pins := rfl

@[simp] theorem State.raiseFault_mem (s : State) (c : FaultCause) :
    (s.raiseFault c).mem = s.mem := rfl

@[simp] theorem State.raiseFault_istate (s : State) (c : FaultCause) :
    (s.raiseFault c).istate = s.istate := rfl

@[simp] theorem State.raiseFault_ctl (s : State) (c : FaultCause) :
    (s.raiseFault c).ctl = .faulted := rfl

@[simp] theorem State.raiseFault_curOp (s : State) (c : FaultCause) :
    (s.raiseFault c).curOp = s.curOp := rfl

@[simp] theorem State.raiseFault_prog (s : State) (c : FaultCause) :
    (s.raiseFault c).prog = s.prog := rfl

@[simp] theorem State.raiseFault_fault (s : State) (c : FaultCause) :
    (s.raiseFault c).fault = true := rfl

@[simp] theorem State.raiseFault_cause (s : State) (c : FaultCause) :
    (s.raiseFault c).cause = c := rfl

@[simp] theorem State.raiseFault_inputs (s : State) (c : FaultCause) :
    (s.raiseFault c).inputs = s.inputs := rfl

@[simp] theorem State.raiseFault_cfg (s : State) (c : FaultCause) :
    (s.raiseFault c).cfg = s.cfg := rfl

/-! ### `resetEdge` resets every field -/

@[simp] theorem State.resetEdge_pins (s : State) :
    (s.resetEdge).pins = ⟨true, true, false⟩ := rfl

@[simp] theorem State.resetEdge_mem (s : State) :
    (s.resetEdge).mem = [] := rfl

@[simp] theorem State.resetEdge_istate (s : State) :
    (s.resetEdge).istate = .linesConfigured := rfl

@[simp] theorem State.resetEdge_ctl (s : State) :
    (s.resetEdge).ctl = .idle := rfl

@[simp] theorem State.resetEdge_curOp (s : State) :
    (s.resetEdge).curOp = .none := rfl

@[simp] theorem State.resetEdge_prog (s : State) :
    (s.resetEdge).prog = [] := rfl

@[simp] theorem State.resetEdge_fault (s : State) :
    (s.resetEdge).fault = false := rfl

@[simp] theorem State.resetEdge_cause (s : State) :
    (s.resetEdge).cause = .none := rfl

@[simp] theorem State.resetEdge_inputs (s : State) :
    (s.resetEdge).inputs = s.inputs := rfl

@[simp] theorem State.resetEdge_cfg (s : State) :
    (s.resetEdge).cfg = s.cfg := rfl

/-! ### `sendCommand` adds the micro-ops of a command -/

@[simp] theorem State.sendCommand_pins (s : State) (c : Command) :
    (s.sendCommand c).pins = s.pins := rfl

@[simp] theorem State.sendCommand_mem (s : State) (c : Command) :
    (s.sendCommand c).mem = s.mem := rfl

@[simp] theorem State.sendCommand_istate (s : State) (c : Command) :
    (s.sendCommand c).istate = s.istate := rfl

@[simp] theorem State.sendCommand_ctl (s : State) (c : Command) :
    (s.sendCommand c).ctl = .busy := rfl

@[simp] theorem State.sendCommand_curOp (s : State) (c : Command) :
    (s.sendCommand c).curOp = s.curOp := rfl

@[simp] theorem State.sendCommand_prog (s : State) (c : Command) :
    (s.sendCommand c).prog = s.prog ++ sendCmd (delayCycles s.cfg) (commandWord s.cfg c) := rfl

@[simp] theorem State.sendCommand_fault (s : State) (c : Command) :
    (s.sendCommand c).fault = s.fault := rfl

@[simp] theorem State.sendCommand_cause (s : State) (c : Command) :
    (s.sendCommand c).cause = s.cause := rfl

@[simp] theorem State.sendCommand_inputs (s : State) (c : Command) :
    (s.sendCommand c).inputs = s.inputs := rfl

@[simp] theorem State.sendCommand_cfg (s : State) (c : Command) :
    (s.sendCommand c).cfg = s.cfg := rfl

/-! ### `advanceTo` steps the program on, or ends it -/

@[simp] theorem State.advanceTo_pins (s : State) (l : List MicroOp) :
    (s.advanceTo l).pins = s.pins := by
  unfold State.advanceTo; split <;> rfl

@[simp] theorem State.advanceTo_mem (s : State) (l : List MicroOp) :
    (s.advanceTo l).mem = s.mem := by
  unfold State.advanceTo; split <;> rfl

@[simp] theorem State.advanceTo_fault (s : State) (l : List MicroOp) :
    (s.advanceTo l).fault = s.fault := by
  unfold State.advanceTo; split <;> rfl

@[simp] theorem State.advanceTo_cause (s : State) (l : List MicroOp) :
    (s.advanceTo l).cause = s.cause := by
  unfold State.advanceTo; split <;> rfl

@[simp] theorem State.advanceTo_inputs (s : State) (l : List MicroOp) :
    (s.advanceTo l).inputs = s.inputs := by
  unfold State.advanceTo; split <;> rfl

@[simp] theorem State.advanceTo_cfg (s : State) (l : List MicroOp) :
    (s.advanceTo l).cfg = s.cfg := by
  unfold State.advanceTo; split <;> rfl

@[simp] theorem State.advanceTo_nil (s : State) : s.advanceTo [] = s.complete := rfl

theorem State.advanceTo_of_ne_nil (s : State) {l : List MicroOp} (h : l ≠ []) :
    s.advanceTo l = { s with prog := l } := if_neg h

@[simp] theorem State.advanceTo_prog (s : State) (l : List MicroOp) :
    (s.advanceTo l).prog = l := by
  by_cases h : l = []
  · subst h; rfl
  · rw [State.advanceTo_of_ne_nil s h]

/-! ### `resetOf` -/

@[simp] theorem State.resetOf_inputs (c : Config) (l : List Stimulus) :
    (State.resetOf c l).inputs = l := rfl

@[simp] theorem State.resetOf_cfg (c : Config) (l : List Stimulus) :
    (State.resetOf c l).cfg = c := rfl

end Sys2Proof.Machine
end

