-- ==== Sys2Proof/Laws/Controller.lean ====
section
/-! SUPPORT. What a step can do, said once: the cases of R100, one edge of a bus program, and the
frame every instruction keeps. -/

namespace Sys2Proof.Machine

/-! ## One edge of a bus program (R104) -/

/-- One edge in `BUSY`: the head acts on the pins, and the program moves on. -/
theorem State.runEdge_of_prog (s : State) (h : s.prog ≠ []) :
    s.runEdge =
      .next ({ s with pins := headPins s.pins s.prog }.advanceTo (afterEdge s.prog)) := by
  unfold State.runEdge
  match hp : s.prog with
  | [] => exact absurd hp h
  | .act u :: l => rfl
  | .wait k :: l => rfl

/-- With no program there is no case (log 12). -/
theorem State.runEdge_nil (s : State) (h : s.prog = []) :
    s.runEdge = .fault .busyWithoutProgram := by
  unfold State.runEdge; rw [h]

/-! ## The cases of a step (R100) -/

theorem step_of_ports {s : State} {p : Ports} {rest : List Stimulus}
    (h : s.sample = (.ports p, rest)) : step s = portsEdge p { s with inputs := rest } := by
  simp only [step, clockEdge, h]

theorem step_of_wire {s : State} {w : WireWord} {rest : List Stimulus}
    (h : s.sample = (.wire w, rest)) : step s = runWireWord w { s with inputs := rest } := by
  simp only [step, clockEdge, h]

/-- A wire word is sampled only in `IDLE`. -/
theorem State.sample_wire_idle {s : State} {w : WireWord} {rest : List Stimulus}
    (h : s.sample = (.wire w, rest)) : s.ctl = .idle := by
  unfold State.sample at h
  split at h <;> try simp at h
  split at h
  · assumption
  · simp at h

theorem portsEdge_rst {p : Ports} (s : State) (h : p.rst = true) :
    portsEdge p s = .next s.resetEdge := by simp [portsEdge, h]

theorem portsEdge_accept {p : Ports} {s : State} (h : p.rst = false) (hv : p.reqValid = true)
    (hi : s.ctl = .idle) : portsEdge p s = exec (decodeRequest p.request) s := by
  simp [portsEdge, h, hv, hi]

theorem portsEdge_idle {p : Ports} {s : State} (h : p.rst = false) (hv : p.reqValid = false)
    (hi : s.ctl = .idle) : portsEdge p s = .next s := by
  simp [portsEdge, h, hv, hi]

theorem portsEdge_busy {p : Ports} {s : State} (h : p.rst = false) (hb : s.ctl = .busy) :
    portsEdge p s = s.runEdge := by
  simp [portsEdge, h, hb]

theorem portsEdge_faulted {p : Ports} {s : State} (h : p.rst = false) (hf : s.ctl = .faulted) :
    portsEdge p s = .next s := by
  simp [portsEdge, h, hf]

/-- Everything a step to a next state can be. -/
inductive StepCase (s t : State) : Prop
  | reset (p : Ports) (rest : List Stimulus) (sampled : s.sample = (.ports p, rest))
      (rst : p.rst = true) (result : t = State.resetOf s.cfg rest)
  | accept (p : Ports) (rest : List Stimulus) (sampled : s.sample = (.ports p, rest))
      (rst : p.rst = false) (idle : s.ctl = .idle) (valid : p.reqValid = true)
      (result : exec (decodeRequest p.request) { s with inputs := rest } = .next t)
  | idle (p : Ports) (rest : List Stimulus) (sampled : s.sample = (.ports p, rest))
      (rst : p.rst = false) (idle : s.ctl = .idle) (valid : p.reqValid = false)
      (result : t = { s with inputs := rest })
  | run (p : Ports) (rest : List Stimulus) (sampled : s.sample = (.ports p, rest))
      (rst : p.rst = false) (busy : s.ctl = .busy) (prog : s.prog ≠ [])
      (result : t = { s with inputs := rest, pins := headPins s.pins s.prog }.advanceTo
        (afterEdge s.prog))
  | faulted (p : Ports) (rest : List Stimulus) (sampled : s.sample = (.ports p, rest))
      (rst : p.rst = false) (faulted : s.ctl = .faulted) (result : t = { s with inputs := rest })
  | wire (w : WireWord) (rest : List Stimulus) (i : Instr) (sampled : s.sample = (.wire w, rest))
      (idle : s.ctl = .idle) (decoded : decodeWire w = .ok i)
      (result : exec i { s with inputs := rest } = .next t)

/-- A step to a next state is one of the cases of R100. -/
theorem step_cases {s t : State} (h : step s = .next t) : StepCase s t := by
  rcases hs : s.sample with ⟨p | w, rest⟩
  · rw [step_of_ports hs] at h
    cases hr : p.rst with
    | true =>
      rw [portsEdge_rst _ hr] at h
      cases h
      exact .reset p rest hs hr rfl
    | false =>
      cases hc : s.ctl with
      | idle =>
        cases hv : p.reqValid with
        | true =>
          rw [portsEdge_accept hr hv (by exact hc)] at h
          exact .accept p rest hs hr hc hv h
        | false =>
          rw [portsEdge_idle hr hv (by exact hc)] at h
          cases h
          exact .idle p rest hs hr hc hv rfl
      | busy =>
        rw [portsEdge_busy hr (by exact hc)] at h
        by_cases hp : s.prog = []
        · rw [State.runEdge_nil _ (by exact hp)] at h
          cases h
        · rw [State.runEdge_of_prog _ (by exact hp)] at h
          cases h
          exact .run p rest hs hr hc hp rfl
      | faulted =>
        rw [portsEdge_faulted hr (by exact hc)] at h
        cases h
        exact .faulted p rest hs hr hc rfl
  · rw [step_of_wire hs] at h
    unfold runWireWord at h
    split at h
    · rename_i i hi
      exact .wire w rest i hs (State.sample_wire_idle hs) hi h
    · cases h

/-! ## Runs -/

/-- A run goes on from the next state. -/
theorem run_succ {s t : State} (h : step s = .next t) (n : Nat) :
    core.run (n + 1) s = core.run n t := by
  simp only [Host.Core.run, core, h]

/-- A trace records the next state and goes on from it. -/
theorem trace_succ {s t : State} (h : step s = .next t) (n : Nat) :
    trace (n + 1) s = ⟨t.pins, s.resetNext⟩ :: trace n t := by
  simp only [trace, h]

/-! ## Accepting a request, and running while requests wait -/

@[simp] theorem Ports.request_presenting (r : Request) : (Ports.presenting r).request = r :=
  Request.ofFields_fields r

/-- In `IDLE` a presented request is accepted at the next edge (R101). -/
theorem step_present {s : State} {r : Request} {rest : List Stimulus} (hi : s.ctl = .idle)
    (h : s.inputs = .present r :: rest) :
    step s = exec (decodeRequest r) { s with inputs := rest } ∧ s.resetNext = false := by
  have hs : s.sample = (.ports (.presenting r), rest) := by simp [State.sample, h, hi]
  refine ⟨?_, by simp [State.resetNext, hs, Ports.presenting]⟩
  rw [step_of_ports hs, portsEdge_accept rfl rfl (by exact hi), Ports.request_presenting]

/-- Outside `IDLE`, with no reset at the edge, the ports are sampled and nothing is accepted. -/
theorem State.sample_ports {s : State} (h : s.resetNext = false) (hi : s.ctl ≠ .idle) :
    ∃ p rest, s.sample = (.ports p, rest) ∧ p.rst = false := by
  rcases hs : s.sample with ⟨p | w, rest⟩
  · exact ⟨p, rest, rfl, by simpa [State.resetNext, hs] using h⟩
  · exact absurd (State.sample_wire_idle hs) hi

/-- What the monitor is told of a reset is what the ports carried. -/
theorem State.resetNext_of_ports {s : State} {p : Ports} {rest : List Stimulus}
    (h : s.sample = (.ports p, rest)) : s.resetNext = p.rst := by
  simp only [State.resetNext, h]

/-- While only a host acts on the block, every edge samples the ports. -/
theorem State.sample_host {s : State} (h : s.hostDriven = true) :
    ∃ p rest, s.sample = (.ports p, rest) ∧ rest.all Stimulus.ofHost = true := by
  unfold State.hostDriven at h
  unfold State.sample
  match hl : s.inputs with
  | [] => exact ⟨_, _, rfl, rfl⟩
  | .edge p :: l =>
    rw [hl, List.all_cons, Bool.and_eq_true] at h
    exact ⟨_, _, rfl, h.2⟩
  | .present r :: l =>
    rw [hl, List.all_cons, Bool.and_eq_true] at h
    refine ⟨_, _, rfl, ?_⟩
    split
    · exact h.2
    · rw [List.all_cons, h.2]; rfl
  | .wire w :: l => simp [hl, Stimulus.ofHost] at h

/-- In `BUSY`, while only held requests wait, the program runs and the requests stay. -/
theorem step_busy {s : State} (hb : s.ctl = .busy) (hr : s.requestsOnly = true)
    (hp : s.prog ≠ []) :
    step s = .next ({ s with pins := headPins s.pins s.prog }.advanceTo (afterEdge s.prog)) ∧
      s.resetNext = false := by
  obtain ⟨p, hs, h⟩ : ∃ p, s.sample = (.ports p, s.inputs) ∧ p.rst = false := by
    unfold State.sample
    match hl : s.inputs with
    | [] => exact ⟨_, rfl, rfl⟩
    | .present r :: l => exact ⟨.presenting r, by simp [hb], rfl⟩
    | .edge p :: l => simp [State.requestsOnly, hl] at hr
    | .wire w :: l => simp [State.requestsOnly, hl] at hr
  refine ⟨?_, by simp [State.resetNext, hs, h]⟩
  rw [step_of_ports hs, portsEdge_busy h (by exact hb), State.runEdge_of_prog _ (by exact hp)]

/-- The inputs still to come have no part in an edge of a program. -/
theorem State.runEdge_inputs (s : State) (l : List Stimulus) :
    ({ s with inputs := l } : State).runEdge =
      match s.runEdge with
      | .next t => .next { t with inputs := l }
      | .fault f => .fault f
      | .refused r => .refused r := by
  by_cases h : s.prog = []
  · rw [State.runEdge_nil s h, State.runEdge_nil _ (by exact h)]
  · rw [State.runEdge_of_prog s h, State.runEdge_of_prog _ (by exact h)]
    simp only [State.advanceTo]
    split <;> rfl

/-! ## What every instruction leaves alone -/

/-- Everything an instruction can do to the state. -/
inductive ExecCase (s t : State) : Prop
  | memory (result : t = { s with mem := t.mem }) (wf : Memory.wf s.mem = true → Memory.wf t.mem = true)
  | fault (c : FaultCause) (cause : c ≠ .none) (result : t = s.raiseFault c)
  | launchInit (istate : s.istate = .linesConfigured) (result : t = s.launch .init (initProg s.cfg))
  | launchRefresh (istate : s.istate = .chipConfigured)
      (result : t = s.launch .refresh
        (refreshProg s.cfg (s.word 0) (s.word 1)))
  | command (code : BitVec 12) (result : t = s.emit (sendCmd (delayCycles s.cfg) code))
  | word (v : TxValue) (n : Nat) (result : t = s.sendWord v n)

theorem IState.ne_chipConfigured {i : IState} : i ≠ .chipConfigured ↔ i = .linesConfigured := by
  cases i <;> decide

/-- An instruction that answers a next state does one of these. -/
theorem exec_cases {i : Instr} {s t : State} (h : exec i s = .next t) : ExecCase s t := by
  cases i with
  | init =>
    simp only [exec, execInit] at h
    split at h <;> cases h
    · exact .fault .reinit (by decide) rfl
    · rename_i hi
      exact .launchInit (IState.ne_chipConfigured.mp hi) rfl
  | setmem p v => cases h; exact .memory rfl (State.wf_writeByte s p v)
  | wrdig p d => cases h; exact .memory rfl (State.wf_writeByte s p _)
  | wrdigs d => cases h; exact .memory rfl (State.wf_writeAll s _)
  | refresh =>
    simp only [exec, execRefresh] at h
    split at h <;> cases h
    · exact .fault .notInitialized (by decide) rfl
    · rename_i hi
      exact .launchRefresh (not_not.mp hi) rfl
  | reserved000 => cases h; exact .fault .illegalOp (by decide) rfl
  | reserved110 => cases h; exact .fault .illegalOp (by decide) rfl
  | reserved111 => cases h; exact .fault .illegalOp (by decide) rfl
  | normalMode => cases h; exact .command _ rfl
  | testMode => cases h; exact .command _ rfl
  | oscOn => cases h; exact .command _ rfl
  | oscRc => cases h; exact .command _ rfl
  | oscXtal => cases h; exact .command _ rfl
  | oscExt => cases h; exact .command _ rfl
  | biasOn => cases h; exact .command _ rfl
  | biasOff => cases h; exact .command _ rfl
  | wdtClear => cases h; exact .command _ rfl
  | biasCom sel c => cases h; exact .command _ rfl
  | wdtTimebase t => cases h; exact .command _ rfl
  | writeAddr0 => cases h; exact .word _ _ rfl
  | data16 w => cases h; exact .word _ _ rfl

/-- No instruction moves a pin, changes the initialization state, or takes an input (R102, R164 to
R174: only edges do). -/
theorem exec_frame {i : Instr} {s t : State} (h : exec i s = .next t) :
    t.pins = s.pins ∧ t.istate = s.istate ∧ t.inputs = s.inputs ∧ t.cfg = s.cfg := by
  cases exec_cases h with
  | memory result _ => rw [result]; exact ⟨rfl, rfl, rfl, rfl⟩
  | fault _ _ result => rw [result]; exact ⟨rfl, rfl, rfl, rfl⟩
  | launchInit _ result => rw [result]; exact ⟨rfl, rfl, rfl, rfl⟩
  | launchRefresh _ result => rw [result]; exact ⟨rfl, rfl, rfl, rfl⟩
  | command _ result => rw [result]; exact ⟨rfl, rfl, rfl, rfl⟩
  | word _ _ result => rw [result]; exact ⟨rfl, rfl, rfl, rfl⟩

end Sys2Proof.Machine
end

