-- ==== Sys2Proof/Laws/Programs.lean ====
section
/-! SUPPORT. The laws of the block's bus programs: their delays, their line discipline, what they leave
on the pins, and how an edge moves them on. -/

namespace Sys2Proof.Machine

/-! ## What a program leaves on the pins -/

/-- A `Tx` of at least one bit leaves the clock high and its last bit on the line (R144). -/
@[simp] theorem finalPins_tx_succ (p : Pins) (d : Nat) (v : TxValue) (n : Nat) :
    finalPins p (tx d v (n + 1)) = ⟨p.csN, true, v.getLsbD n⟩ := by
  rw [tx_succ, finalPins_append, finalPins_txBit, finalPins_tx_csN]

/-- A command leaves the lines at rest and its last bit on `data` (R121, R128). -/
@[simp] theorem finalPins_sendCmd (p : Pins) (d : Nat) (code : BitVec 12) :
    finalPins p (sendCmd d code) = ⟨true, true, code.getLsbD 11⟩ := by
  simp [sendCmd, bracket, finalPins_append]

theorem bracket_ne_nil (d : Nat) (l : List MicroOp) : bracket d l ≠ [] := by
  simp [bracket, beginOps]

/-- `INIT_SEQ` as a list: six commands (R241). -/
theorem Config.initSeq_toList (c : Config) :
    c.initSeq.toList = [c.initSeq[0], c.initSeq[1], c.initSeq[2], c.initSeq[3], c.initSeq[4],
      c.initSeq[5]] :=
  List.ext_getElem (by simp) fun i h _ => by
    simp only [Vector.length_toList] at h
    interval_cases i <;> simp

/-- The six commands of an INIT, written out (R242). -/
theorem initProg_eq (c : Config) :
    initProg c = [c.initSeq[0], c.initSeq[1], c.initSeq[2], c.initSeq[3], c.initSeq[4],
      c.initSeq[5]].flatMap fun k => sendCmd (delayCycles c) (commandWord c k) := by
  rw [initProg, Config.initSeq_toList]

theorem initProg_ne_nil (c : Config) : initProg c ≠ [] := by
  simp [initProg_eq, sendCmd, bracket_ne_nil]

/-- An INIT leaves the lines at rest and the last bit of its last command on `data` (R121, R128). -/
@[simp] theorem finalPins_initProg (p : Pins) (c : Config) :
    finalPins p (initProg c) = ⟨true, true, (commandWord c c.initSeq[5]).getLsbD 11⟩ := by
  simp [initProg_eq, finalPins_append]

theorem refreshProg_ne_nil (c : Config) (w0 w1 : TxValue) : refreshProg c w0 w1 ≠ [] :=
  bracket_ne_nil _ _

/-! ## Delays (R27) -/

theorem delaysOk_append (d : Nat) (a b : List MicroOp) :
    delaysOk d (a ++ b) = (delaysOk d a && delaysOk d b) := by
  simp [delaysOk]

theorem delaysOk_cons_act (d : Nat) (u : PinUpdate) (l : List MicroOp) :
    delaysOk d (.act u :: l) = delaysOk d l := rfl

theorem delaysOk_cons_wait (d k : Nat) (l : List MicroOp) :
    delaysOk d (.wait k :: l) = (decide (1 ≤ k) && decide (k ≤ d) && delaysOk d l) := rfl

theorem delaysOk_tx {d : Nat} (hd : 1 ≤ d) (v : TxValue) (n : Nat) :
    delaysOk d (tx d v n) = true := by
  induction n with
  | zero => rfl
  | succ n ih =>
    rw [tx_succ, delaysOk_append, ih]
    simp [delaysOk, txBit, clkLow, setData, clkHigh, hd]

theorem delaysOk_bracket {d : Nat} (hd : 1 ≤ d) {l : List MicroOp} (h : delaysOk d l = true) :
    delaysOk d (bracket d l) = true := by
  rw [bracket, delaysOk_append, delaysOk_append, h]
  simp [delaysOk, beginOps, endOps, beginAct, endAct, hd]

theorem delaysOk_sendCmd {d : Nat} (hd : 1 ≤ d) (code : BitVec 12) :
    delaysOk d (sendCmd d code) = true := delaysOk_bracket hd (delaysOk_tx hd _ _)

/-- Commands one after the other. -/
theorem delaysOk_commands {d : Nat} (hd : 1 ≤ d) (cfg : Config) (cs : List Command) :
    delaysOk d (cs.flatMap fun c => sendCmd d (commandWord cfg c)) = true := by
  induction cs with
  | nil => rfl
  | cons c cs ih => rw [List.flatMap_cons, delaysOk_append, delaysOk_sendCmd hd, ih]; rfl

theorem delaysOk_initProg (c : Config) : delaysOk (delayCycles c) (initProg c) = true :=
  delaysOk_commands (one_le_delayCycles c) c c.initSeq.toList

theorem delaysOk_refreshProg (c : Config) (w0 w1 : TxValue) :
    delaysOk (delayCycles c) (refreshProg c w0 w1) = true := by
  have h := one_le_delayCycles c
  refine delaysOk_bracket h ?_
  rw [delaysOk_append, delaysOk_append, delaysOk_tx h, delaysOk_tx h, delaysOk_tx h]
  rfl

/-! ## Line discipline (R121, R130) -/

theorem linesOk_wait (p : Pins) (k : Nat) (l : List MicroOp) :
    linesOk p (.wait k :: l) = linesOk p l := rfl

/-- Inside a transaction a `Tx` keeps the discipline. -/
theorem linesOk_tx (p : Pins) (hp : p.csN = false) (d : Nat) (v : TxValue) (n : Nat)
    (l : List MicroOp) :
    linesOk p (tx d v n ++ l) = linesOk (finalPins p (tx d v n)) l := by
  induction n generalizing p v with
  | zero => rfl
  | succ n ih =>
    rw [tx_succ_shift, List.append_assoc, finalPins_append, finalPins_txBit]
    rw [← ih ⟨p.csN, true, v.getLsbD 0⟩ hp]
    simp [txBit, clkLow, setData, clkHigh, linesOk, Pins.changeOk, PinUpdate.apply, hp]

/-- A bracket around what keeps the discipline inside a transaction. -/
theorem linesOk_beginOps (p : Pins) (hw : p.wr = true) (d : Nat) (l : List MicroOp) :
    linesOk p (beginOps d ++ l) = linesOk ⟨false, true, p.data⟩ l := by
  simp [beginOps, beginAct, linesOk, Pins.changeOk, PinUpdate.apply, hw]

theorem linesOk_endOps (p : Pins) (hw : p.wr = true) (d : Nat) (l : List MicroOp) :
    linesOk p (endOps d ++ l) = linesOk ⟨true, true, p.data⟩ l := by
  simp [endOps, endAct, linesOk, Pins.changeOk, PinUpdate.apply, hw]

/-- A command from a high clock keeps the discipline. -/
theorem linesOk_sendCmd (p : Pins) (hw : p.wr = true) (d : Nat) (code : BitVec 12)
    (l : List MicroOp) :
    linesOk p (sendCmd d code ++ l) = linesOk ⟨true, true, code.getLsbD 11⟩ l := by
  rw [sendCmd, bracket, List.append_assoc, List.append_assoc, linesOk_beginOps p hw,
    linesOk_tx _ rfl, finalPins_tx_succ, linesOk_endOps _ rfl]
  simp

theorem linesOk_commands (p : Pins) (hp : p.atRest = true) (d : Nat) (cfg : Config)
    (cs : List Command) :
    linesOk p (cs.flatMap fun c => sendCmd d (commandWord cfg c)) = true := by
  induction cs generalizing p with
  | nil => exact hp
  | cons c cs ih =>
    have hw : p.wr = true := by simp only [Pins.atRest, Bool.and_eq_true] at hp; exact hp.2
    rw [List.flatMap_cons, linesOk_sendCmd p hw]
    exact ih _ rfl

theorem linesOk_initProg (p : Pins) (hp : p.atRest = true) (c : Config) :
    linesOk p (initProg c) = true := linesOk_commands p hp _ c c.initSeq.toList

/-- One word in a transaction of its own. -/
theorem linesOk_bracket_tx (p : Pins) (hp : p.atRest = true) (d : Nat) (v : TxValue) (n : Nat) :
    linesOk p (bracket d (tx d v n)) = true := by
  have hw : p.wr = true := by simp only [Pins.atRest, Bool.and_eq_true] at hp; exact hp.2
  have hwr := finalPins_tx_wr ⟨false, true, p.data⟩ d v n rfl
  rw [bracket, List.append_assoc, linesOk_beginOps p hw, linesOk_tx _ rfl,
    ← List.append_nil (endOps d), linesOk_endOps _ hwr]
  rfl

theorem linesOk_refreshProg (p : Pins) (hp : p.atRest = true) (c : Config) (w0 w1 : TxValue) :
    linesOk p (refreshProg c w0 w1) = true := by
  have hw : p.wr = true := by simp only [Pins.atRest, Bool.and_eq_true] at hp; exact hp.2
  rw [refreshProg, bracket, List.append_assoc, linesOk_beginOps p hw, List.append_assoc,
    List.append_assoc, linesOk_tx _ rfl, finalPins_tx_succ, linesOk_tx _ rfl, finalPins_tx_succ,
    linesOk_tx _ rfl, finalPins_tx_succ, ← List.append_nil (endOps _), linesOk_endOps _ rfl]
  rfl

/-! ## One edge of a program (R104) -/

/-- An edge keeps the delays of a program in range and takes one edge off its length. -/
theorem afterEdge_delays {d : Nat} {l : List MicroOp} (hd : delaysOk d l = true) (hl : l ≠ []) :
    delaysOk d (afterEdge l) = true ∧ progEdges (afterEdge l) + 1 = progEdges l := by
  match l with
  | [] => exact absurd rfl hl
  | .act u :: l => exact ⟨hd, by simp [afterEdge]; omega⟩
  | .wait k :: l =>
    rw [delaysOk_cons_wait] at hd
    simp only [Bool.and_eq_true, decide_eq_true_eq] at hd
    simp only [afterEdge]
    split
    · rw [delaysOk_cons_wait, hd.2]
      simp
      omega
    · exact ⟨hd.2, by simp; omega⟩

/-- The first cycle of a program, and the rest. -/
theorem playPins_edge (p : Pins) {d : Nat} {l : List MicroOp} (hd : delaysOk d l = true)
    (hl : l ≠ []) :
    playPins p l = headPins p l :: playPins (headPins p l) (afterEdge l) ∧
      finalPins p l = finalPins (headPins p l) (afterEdge l) := by
  match l with
  | [] => exact absurd rfl hl
  | .act u :: l => exact ⟨rfl, rfl⟩
  | .wait k :: l =>
    rw [delaysOk_cons_wait] at hd
    simp only [Bool.and_eq_true, decide_eq_true_eq] at hd
    obtain ⟨j, rfl⟩ : ∃ j, k = j + 1 := ⟨k - 1, by omega⟩
    simp only [afterEdge, headPins]
    split
    · exact ⟨by simp [playPins, List.replicate_succ], rfl⟩
    · obtain rfl : j = 0 := by omega
      exact ⟨by simp [playPins], rfl⟩

/-- An edge keeps the line discipline. -/
theorem linesOk_edge (p : Pins) (l : List MicroOp) (hl : l ≠ []) (h : linesOk p l = true) :
    linesOk (headPins p l) (afterEdge l) = true := by
  match l with
  | [] => exact absurd rfl hl
  | .act u :: l =>
    simp only [linesOk, Bool.and_eq_true] at h
    exact h.2
  | .wait k :: l =>
    simp only [afterEdge, headPins]
    split
    · exact h
    · exact h

/-! ## The bits of a word -/

theorem wireBits_setWidth {w : Nat} (v : BitVec w) (k n : Nat) (h : n ≤ k) :
    wireBits (v.setWidth k) n = wireBits v n := by
  refine List.map_congr_left fun i hi => ?_
  simp only [List.mem_range] at hi
  rw [BitVec.getLsbD_setWidth, decide_eq_true (by omega), Bool.true_and]

/-- The 16 bits of a refresh word, in the order they are sent (R52, R53). -/
theorem wireBits_refreshWord (o : WordOrder) (m : List Host.Cell) (k : Nat) :
    wireBits (refreshWord o m k) 16 =
      (List.range 16).map fun j =>
        (Memory.read m (sentByte o (2 * k + j / 8))).getLsbD (j % 8) := by
  refine List.map_congr_left fun j hj => ?_
  simp only [List.mem_range] at hj
  simp only [refreshWord, BitVec.getLsbD_append]
  by_cases h : j < 8
  · simp [h, Nat.div_eq_of_lt h, Nat.mod_eq_of_lt h]
  · rw [if_neg h, show j / 8 = 1 by omega, show j - 8 = j % 8 by omega]

/-- In a little-endian build the bytes go out in the order of their positions (R53). -/
@[simp] theorem sentByte_little (i : Nat) : sentByte .little i = i := rfl

/-- Edges add up. -/
theorem afterEdge_afterEdges (n : Nat) (l : List MicroOp) :
    afterEdge (afterEdges n l) = afterEdges (n + 1) l := by
  induction n generalizing l with
  | zero => rfl
  | succ n ih => exact ih (afterEdge l)

/-- `Tx` of at least one bit is its first bit, then `Tx` of the shifted value (R143). -/
theorem tx_of_pos (d : Nat) (v : TxValue) {n : Nat} (h : 0 < n) :
    tx d v n = txBit d (v.getLsbD 0) ++ tx d (v >>> 1) (n - 1) := by
  obtain ⟨m, rfl⟩ : ∃ m, n = m + 1 := ⟨n - 1, by omega⟩
  exact tx_succ_shift d v m

end Sys2Proof.Machine
end

