-- ==== Sys2Proof/Laws/Realization.lean ====
section
/-! SUPPORT. The laws of the register realization: how the words and transactions the registers stand
for follow each other, and the counters. -/

namespace Sys2Proof.Machine

/-- The words from `word` on are that word and the words after it. -/
theorem wordsFrom_cons (s : State) (t : Fin 6) (k : Fin 3) :
    wordsFrom s t k =
      tx (delayCycles s.cfg) (wordOf s t k).1 (wordOf s t k).2.toNat ++ wordsAfter s t k := by
  cases hc : s.curOp <;> fin_cases k <;>
    simp [wordsFrom, wordsAfter, moreWords, hc, wordOf, List.range, List.range.loop]

/-- A word has 1 to 16 bits. -/
theorem wordOf_bits (s : State) (t : Fin 6) (k : Fin 3) :
    (wordOf s t k).2 ≠ 0 ∧ (wordOf s t k).2.toNat ≤ 16 := by
  cases hc : s.curOp <;> fin_cases k <;> simp [wordOf, hc]

/-- The transactions after one of an INIT: the next one, and those after it. -/
theorem txnsAfter_of_more (s : State) (t : Fin 6) (h : moreTxns s t = true) :
    txnsAfter s t =
      beginOps (delayCycles s.cfg) ++ wordsFrom s (t + 1) 0 ++ endOps (delayCycles s.cfg)
        ++ txnsAfter s (t + 1) := by
  cases hc : s.curOp <;> simp [moreTxns, hc] at h
  fin_cases t <;>
    simp [txnsAfter, hc, wordsFrom, wordOf, Config.initSeq_toList, sendCmd, bracket] at *

/-- No transaction is left after the last. -/
theorem txnsAfter_of_last (s : State) (t : Fin 6) (h : moreTxns s t = false) :
    txnsAfter s t = [] := by
  cases hc : s.curOp <;> simp [moreTxns, txnsAfter, hc] at *
  fin_cases t <;> simp [Config.initSeq_toList] at *

/-- `bcnt` counts down while it is not 0 (R143). -/
theorem bcnt_sub_one (b : BitVec 5) (h : b ≠ 0) :
    (b - 1).toNat = b.toNat - 1 ∧ 0 < b.toNat := by
  have hb : b.toNat ≠ 0 := fun e => h (BitVec.eq_of_toNat_eq e)
  refine ⟨?_, by omega⟩
  rw [BitVec.toNat_sub_of_le (by bv_omega)]
  rfl

/-- What follows a word is not empty: at least the `End` (R129). -/
theorem afterWord_ne_nil (s : State) (q : SeqRegs) : afterWord s q ≠ [] := by
  simp [afterWord, endOps]

end Sys2Proof.Machine
end

