-- ==== Sys2Proof/Laws/Receiver.lean ====
section
/-! SUPPORT. The laws of the receiver: a word read back from the bits it was sent as, and what whole
words make of a transaction. -/

namespace Sys2Proof.Machine

/-- The bits of a number put together. -/
theorem testBit_numberOfBits (l : List Bool) (i : Nat) :
    (numberOfBits l).testBit i = l.getD i false := by
  induction l generalizing i with
  | nil => simp [numberOfBits]
  | cons b l ih =>
    cases i with
    | zero => simp [numberOfBits]
    | succ i => simpa [numberOfBits, Nat.testBit_bit_succ] using ih i

@[simp] theorem wireBits_length {w : Nat} (v : BitVec w) (n : Nat) :
    (wireBits v n).length = n := by simp [wireBits]

/-- A word is read back from the bits it was sent as (R51). -/
@[simp] theorem wordOfBits_wireBits {n : Nat} (v : BitVec n) :
    wordOfBits n (wireBits v n) = v := by
  refine BitVec.eq_of_getLsbD_eq fun i hi => ?_
  rw [wordOfBits, BitVec.getLsbD_ofNat, testBit_numberOfBits]
  simp [wireBits, hi]

/-- One data word more. -/
theorem dataWords_succ (k : Nat) (w : BitVec 16) (l : List Bool) :
    dataWords (k + 1) (wireBits w 16 ++ l) = .wire16 w :: dataWords k l := by
  rw [dataWords, List.take_left' (wireBits_length w 16), List.drop_left' (wireBits_length w 16),
    wordOfBits_wireBits]

/-- Twelve bits of the command class are one command word (R80). -/
theorem wordsOfBits_command (w : BitVec 12)
    (h : classOfBits (wireBits w 12) = some .command) :
    wordsOfBits (wireBits w 12) = some [.wire12 w] := by
  simp [wordsOfBits, h]

/-- The class of a transaction is in its first word (R80). -/
theorem classOfBits_append (w : BitVec 9) (l : List Bool) :
    classOfBits (wireBits w 9 ++ l) = classOfBits (wireBits w 9) := by
  simp only [wireBits, List.range, List.range.loop, List.map_cons, List.cons_append]
  cases w.getLsbD 0 <;> cases w.getLsbD 1 <;> cases w.getLsbD 2 <;> rfl

/-- A write word and whole data words after it (R80). -/
theorem wordsOfBits_write (w : BitVec 9) (l : List Bool)
    (h : classOfBits (wireBits w 9) = some .write) (hl : l.length % 16 = 0) :
    wordsOfBits (wireBits w 9 ++ l) = some (.wire9 w :: dataWords (l.length / 16) l) := by
  simp only [wordsOfBits, classOfBits_append, h, List.length_append, wireBits_length,
    Nat.add_sub_cancel_left, List.take_left' (wireBits_length w 9),
    List.drop_left' (wireBits_length w 9), wordOfBits_wireBits]
  rw [if_pos ⟨by omega, hl⟩]

end Sys2Proof.Machine
end

