-- ==== Sys2Proof/Laws/Wire.lean ====
section
/-! SUPPORT. What a wire word does: it is a command or one of the two words of a refresh, and it only
hands micro-ops to the sequencer. -/

namespace Sys2Proof.Machine

/-- The rows a wire word can decode to. -/
theorem decodeWire_cases {w : WireWord} {i : Instr} (h : decodeWire w = .ok i) :
    (∃ c, i = commandInstr c) ∨ i = .writeAddr0 ∨ ∃ v, i = .data16 v := by
  cases w with
  | wire9 w =>
    simp only [decodeWire] at h
    split at h <;> cases h
    exact .inr (.inl rfl)
  | wire16 w => cases h; exact .inr (.inr ⟨_, rfl⟩)
  | wire12 w =>
    simp only [decodeWire] at h
    split at h <;> cases h
    rename_i hj
    left
    simp only [decodeWire12, decodeFixedCommand, decodeOperandCommand] at hj
    split_ifs at hj <;> simp at hj <;> subst hj <;>
      first
      | exact ⟨.normalMode, rfl⟩ | exact ⟨.testMode, rfl⟩ | exact ⟨.oscOn, rfl⟩
      | exact ⟨.oscRc, rfl⟩ | exact ⟨.oscXtal, rfl⟩ | exact ⟨.oscExt, rfl⟩
      | exact ⟨.biasOn, rfl⟩ | exact ⟨.biasOff, rfl⟩ | exact ⟨.wdtClear, rfl⟩
      | exact ⟨.biasCom _ _, rfl⟩ | exact ⟨.wdtTimebase _, rfl⟩

/-- A command's row sends the command. -/
theorem exec_commandInstr (c : Command) (s : State) :
    exec (commandInstr c) s = .next (s.sendCommand c) := by cases c <;> rfl

/-- A wire word's instruction only hands micro-ops to the sequencer. -/
theorem exec_of_decodeWire {w : WireWord} {i : Instr} {s t : State} (h : decodeWire w = .ok i)
    (he : exec i s = .next t) : ∃ l, t = s.emit l := by
  obtain ⟨c, rfl⟩ | rfl | ⟨v, rfl⟩ := decodeWire_cases h
  · rw [exec_commandInstr] at he; cases he; exact ⟨_, rfl⟩
  · cases he; exact ⟨_, rfl⟩
  · cases he; exact ⟨_, rfl⟩

end Sys2Proof.Machine
end

