-- ==== Sys2Proof/Tests/Slice0.lean ====
section
/-! SUPPORT. The tests, their expected results taken from the rules and from 95_test_vectors.md, and for
each statement with hypotheses a state and operands that meet them. -/

namespace Sys2Proof.Tests

open Sys2Proof Sys2Proof.Machine

/-! ## Small states -/

/-- The build with `D = 1`: 8 kHz. -/
def cfg1 : Config := defaultConfig 8000

/-- A big-endian build, which also sends `TEST_MODE` first. -/
def cfgBig : Config :=
  { cfg1 with
    wordOrder := .big
    initSeq := #v[.testMode, .oscOn, .oscRc, .biasOn, .biasCom 2 0, .wdtClear] }

/-- After a reset edge, with inputs to come. -/
def fresh (l : List Stimulus) : State := State.resetOf cfg1 l

/-- After an INIT. -/
def ready (l : List Stimulus) : State := { fresh l with istate := .chipConfigured }

/-- A program running for a request. -/
def running (o : CurOp) (p : List MicroOp) (l : List Stimulus) : State :=
  { fresh l with ctl := .busy, curOp := o, prog := p }

/-- After a fault. -/
def broken (l : List Stimulus) : State :=
  { fresh l with ctl := .faulted, fault := true, cause := .reinit }

/-- The ports with a reset. -/
def resetPorts : Ports := ⟨true, true, 0, 0, 0⟩

/-- A next state with a property. -/
def nextAnd (o : Host.Outcome State Fault Refusal) (p : State → Bool) : Bool :=
  match o with
  | .next t => p t
  | _ => false

/-! ## Ill-formed terms are refused -/

/-- R85: `p` must be 0 to 3. -/
theorem test_wf_position : (AsmLine.setmem 4 0).wf = false ∧ (AsmLine.wrdig 4 0).wf = false ∧
    (AsmLine.setmem 3 255).wf = true := by decide

/-- R85: `v`, `d` must be 0 to 255. -/
theorem test_wf_byte : (AsmLine.setmem 0 256).wf = false ∧ (AsmLine.wrdig 0 256).wf = false ∧
    (AsmLine.wrdigs 256).wf = false ∧ (AsmLine.showDigit 256).wf = false ∧
    (AsmLine.showFour 0 0 0 256).wf = false ∧ (AsmLine.showFour 256 0 0 0).wf = false := by decide

/-- Two segments on one bit are no wiring; the default is one. -/
theorem test_wf_segBits : ({ defaultSegBits with dp := 0 } : SegBits).wf = false ∧
    defaultSegBits.wf = true ∧ cfg1.wf = true := by decide

/-- A memory out of order, with a zero, with an address twice or past the end is not in its form. -/
theorem test_wf_memory : Memory.wf [(1, 5), (0, 5)] = false ∧ Memory.wf [(0, 0)] = false ∧
    Memory.wf [(1, 5), (1, 6)] = false ∧ Memory.wf [(4, 1)] = false ∧
    Memory.wf [(0, 5), (3, 255)] = true ∧ Memory.wf State.reset.mem = true := by decide

/-- R27: a delay is `1 <= k <= D`. -/
theorem test_wf_delays : delaysOk 2 [.wait 0] = false ∧ delaysOk 2 [.wait 3] = false ∧
    delaysOk 2 [.wait 2, clkLow] = true := by decide

/-- R121, R130: the clock may not rise as the select changes, and a program ends at rest. -/
theorem test_wf_lines : linesOk ⟨false, false, false⟩ [endAct] = false ∧
    linesOk ⟨true, true, false⟩ [beginAct] = false ∧
    linesOk ⟨true, true, false⟩ (beginOps 1 ++ endOps 1) = true := by decide

/-- R75, R163: words that are no row of the table. -/
theorem test_reject : decodeWire (.wire12 0xFFF) = .error (.notACommandWord 0xFFF) ∧
    decodeWire (.wire12 0x000) = .error (.notACommandWord 0) ∧
    decodeWire (.wire9 0x006) = .error (.notWriteAddr0 6) := by decide

/-! ## Decoding, each word written out from the spec -/

-- R70, R71: {op, pos, arg}.
theorem test_decode_init : decodeRequest 0b001_00_00000000 = .init := by decide
theorem test_decode_setmem : decodeRequest 0b010_10_10000000 = .setmem 2 0x80 := by decide
theorem test_decode_wrdig : decodeRequest 0b011_11_00000111 = .wrdig 3 7 := by decide
theorem test_decode_wrdigs : decodeRequest 0b100_00_00001000 = .wrdigs 8 := by decide
theorem test_decode_refresh : decodeRequest 0b101_00_00000000 = .refresh := by decide
theorem test_decode_reserved000 : decodeRequest 0b000_00_00000000 = .reserved000 := by decide
theorem test_decode_reserved110 : decodeRequest 0b110_01_01010101 = .reserved110 := by decide
theorem test_decode_reserved111 : decodeRequest 0b111_11_11111111 = .reserved111 := by decide

/-- V-M3: the unused fields of INIT, WRDIGS and REFRESH. -/
theorem test_decode_ignored : decodeRequest 0x07AA = .init ∧ decodeRequest 0x1203 = .wrdigs 3 ∧
    decodeRequest 0x1577 = .refresh := by decide

-- R76, R163: the words written with bit 11 on the left, `rev_9(C)` before the prefix 001.
theorem test_decode_normalMode : decodeWire (.wire12 0b011000111001) = .ok .normalMode := by decide
theorem test_decode_testMode : decodeWire (.wire12 0b000000111001) = .ok .testMode := by decide
theorem test_decode_oscOn : decodeWire (.wire12 0b010000000001) = .ok .oscOn := by decide
theorem test_decode_oscRc : decodeWire (.wire12 0b000011000001) = .ok .oscRc := by decide
theorem test_decode_oscXtal : decodeWire (.wire12 0b000101000001) = .ok .oscXtal := by decide
theorem test_decode_oscExt : decodeWire (.wire12 0b000111000001) = .ok .oscExt := by decide
theorem test_decode_biasOn : decodeWire (.wire12 0b011000000001) = .ok .biasOn := by decide
theorem test_decode_biasOff : decodeWire (.wire12 0b001000000001) = .ok .biasOff := by decide
theorem test_decode_wdtClear : decodeWire (.wire12 0b001110000001) = .ok .wdtClear := by decide

/-- V-C9, V-C10, and R81's places: `s[1]` at bit 7, `s[0]` at bit 8, `c` at bit 10. -/
theorem test_decode_biasCom : decodeWire (.wire12 0b000010100001) = .ok (.biasCom 2 0) ∧
    decodeWire (.wire12 0b010110100001) = .ok (.biasCom 3 1) ∧
    decodeWire (.wire12 0b000100100001) = .ok (.biasCom 1 0) ∧
    decodeWire (.wire12 0b010000100001) = .ok (.biasCom 0 1) := by decide

/-- V-C11 to V-C13, and R81's places: `t[0]` at bit 10, `t[1]` at bit 9, `t[2]` at bit 8. -/
theorem test_decode_wdtTimebase : decodeWire (.wire12 0b000000101001) = .ok (.wdtTimebase 0) ∧
    decodeWire (.wire12 0b011100101001) = .ok (.wdtTimebase 7) ∧
    decodeWire (.wire12 0b010000101001) = .ok (.wdtTimebase 1) ∧
    decodeWire (.wire12 0b000100101001) = .ok (.wdtTimebase 4) := by decide

/-- R78: the write-address word. -/
theorem test_decode_writeAddr0 : decodeWire (.wire9 0b000000101) = .ok .writeAddr0 := by decide

/-- R79: a data word. -/
theorem test_decode_data16 : decodeWire (.wire16 0b1000000000000001) = .ok (.data16 0x8001) := by
  decide

/-- The table's match words, and the words a longer format would hide (log 10). -/
theorem test_decodeTableWord : decodeTableWord 13 0x0400 = some .init ∧
    decodeTableWord 12 0x0401 = some .oscOn ∧ decodeTableWord 9 0x005 = some .writeAddr0 ∧
    decodeTableWord 16 0x0000 = some .reserved000 ∧ decodeTableWord 16 0x0639 = some .normalMode ∧
    decodeTableWord 16 0x005 = some .writeAddr0 ∧ decodeTableWord 16 0x8001 = some (.data16 0x8001) ∧
    decodeTableWord 8 0x05 = none ∧ decodeTableWord 12 0x1000 = none := by decide

/-- A fetched word is what the step runs, first of all inputs. -/
theorem test_withFetchWord : ((fresh []).withFetchWord 16 0x0AFF).inputs = [.present 0x0AFF] ∧
    ((fresh [.present 0]).withFetchWord 9 5).inputs = [.wire (.wire9 5), .present 0] := by decide

/-! ## The assembler (R85, R86) -/

/-- V-M1, P1, P6: the words in the comments of the programs. -/
theorem test_assemble : (AsmLine.setmem 0 0xFF).assemble = some [0x08FF] ∧
    (AsmLine.showDigit 9).assemble = some [0x1009, 0x1400] ∧
    (AsmLine.showFour 1 2 3 4).assemble = some [0x0C01, 0x0D02, 0x0E03, 0x0F04, 0x1400] ∧
    (AsmLine.setmem 4 0).assemble = none := by decide

/-- The text form: a comment, decimal and hexadecimal numbers, an operand out of range. -/
theorem test_assembleText :
    assembleText ['I', 'N', 'I', 'T', ' ', ';', ' ', 'x', '\n', '\n',
      'S', 'E', 'T', 'M', 'E', 'M', ' ', '3', ',', ' ', '0', 'x', 'f', 'F'] =
        some [0x0400, 0x0BFF] ∧
    assembleText ['W', 'R', 'D', 'I', 'G', 'S', ' ', '1', '0'] = some [0x100A] ∧
    assembleText ['W', 'R', 'D', 'I', 'G', 'S', ' ', '2', '5', '6'] = none ∧
    assembleText ['N', 'O', 'P'] = none := by decide

/-! ## Wires -/

/-- V-B1 and V-B2. -/
theorem test_brackets : playPins ⟨true, true, false⟩ (beginOps 2) =
      List.replicate 3 ⟨false, true, false⟩ ∧
    playPins ⟨false, true, true⟩ (endOps 2) = List.replicate 3 ⟨true, true, true⟩ := by decide

/-- R148 (V-T10): the first bit of `Tx(5, 3)` with `D = 1`. -/
theorem test_bit : playPins ⟨false, true, false⟩ (txBit 1 true) =
    [⟨false, false, false⟩, ⟨false, false, true⟩, ⟨false, false, true⟩, ⟨false, true, true⟩,
      ⟨false, true, true⟩] := by decide

/-- V-T2, V-T6 and V-T9, as the monitor sees them. -/
theorem test_tx :
    let m : Monitor := ⟨⟨false, true, false⟩, some [], [], 0⟩
    let sent := fun v n => ((programCycles m.last (tx 1 v n)).foldl Monitor.see m).current
    sent 0x0005 3 = some [true, false, true] ∧ sent 0xABCD 4 = some [true, false, true, true] ∧
    sent 0x0005 9 = some [true, false, true, false, false, false, false, false, false] ∧
    sent 0x0005 0 = some [] ∧ progEdges (tx 1 0x0005 3) = 15 := by decide

/-- V-C9, V-C10, V-C12, V-C13: the parameterized words. -/
theorem test_commandWord : commandWord cfg1 (.biasCom 2 0) = 0x0A1 ∧
    commandWord cfg1 (.biasCom 3 1) = 0x5A1 ∧ commandWord cfg1 (.wdtTimebase 7) = 0x729 ∧
    commandWord cfg1 (.wdtTimebase 1) = 0x429 := by decide

/-- V-C15, V-I2, V-R5: lengths. -/
theorem test_lengths : progEdges (sendCmd 1 0x639) = 64 ∧ progEdges (initProg cfg1) = 384 ∧
    progEdges (refreshProg cfg1 0 0) = 209 ∧ delayCycles cfg1 = 1 ∧
    delayCycles (defaultConfig 1000000) = 125 := by decide +kernel

/-- The monitor on a transaction cut by a reset (R108, R291). -/
theorem test_truncated : (monitor ⟨true, true, false⟩
    [⟨⟨false, true, false⟩, false⟩, ⟨⟨false, false, false⟩, false⟩, ⟨⟨false, true, true⟩, false⟩,
      ⟨⟨true, true, false⟩, true⟩]).closed = [⟨[true], true⟩] := by decide

/-- V-G1 to V-G4: glyphs in both orientations. -/
theorem test_glyph : glyph cfg1 4 = 0x66 ∧ glyph cfg1 9 = 0x6F ∧ glyph cfg1 10 = 0 ∧
    glyph cfg1 255 = 0 ∧ glyph { cfg1 with orientation := .rotated180 } 4 = 0x74 ∧
    glyph { cfg1 with orientation := .rotated180 } 7 = 0x38 := by decide

/-! ## One step of each instruction -/

/-- V-I1, R103: the launch edge; R36: the commands are those of the build. -/
theorem test_init : nextAnd (exec .init (fresh [])) (fun t =>
      t.ctl = .busy && t.curOp = .init && t.pins = ⟨true, true, false⟩ && t.prog.length = 384) = true ∧
    nextAnd (exec .init { fresh [] with cfg := cfgBig }) (fun t =>
      t.prog.take 64 = sendCmd 1 0x039 && t.prog.length = 384) = true := by
  decide +kernel

/-- V-F2. -/
theorem test_init_again :
    nextAnd (exec .init (ready [])) (fun t => t.ctl = .faulted && t.cause.code = 3) = true := by decide

/-- V-M1. -/
theorem test_setmem : nextAnd (exec (.setmem 2 0x80) (fresh [])) (fun t =>
    t.mem = [(2, 0x80)] && t.reqReady false && t.pins = ⟨true, true, false⟩) = true := by decide

/-- V-G5. -/
theorem test_wrdig : nextAnd (exec (.wrdig 3 7) (fresh [])) (fun t => t.byteAt 3 = 0x07) = true := by
  decide

/-- V-M2: the blank pattern takes the cell away. -/
theorem test_wrdig_blank :
    nextAnd (exec (.wrdig 1 10) { fresh [] with mem := [(1, 0xFF)] }) (fun t => t.mem = []) = true := by
  decide

/-- V-G5. -/
theorem test_wrdigs : nextAnd (exec (.wrdigs 8) (fresh [])) (fun t =>
    t.mem = [(0, 0x7F), (1, 0x7F), (2, 0x7F), (3, 0x7F)]) = true := by decide

/-- V-R2: the two words, little-endian; N7: a big-endian build sends `mem[1]` before `mem[0]`. -/
theorem test_refresh :
    let s := { ready [] with mem := [(0, 0x01), (1, 0x80), (3, 0xFF)] }
    let b := { s with cfg := cfgBig }
    s.word 0 = 0x8001 ∧ s.word 1 = 0xFF00 ∧ b.word 0 = 0x0180 ∧ b.word 1 = 0x00FF ∧
    (refreshBits b).drop 9 = wireBits (0x80#8) 8 ++ wireBits (0x01#8) 8 ++ wireBits (0xFF#8) 8
      ++ wireBits (0x00#8) 8 ∧
    nextAnd (exec .refresh s) (fun t => progEdges t.prog = 209 && t.busy) = true := by
  decide +kernel

/-- V-F1. -/
theorem test_refresh_before_init : nextAnd (exec .refresh (fresh [])) (fun t =>
    t.ctl = .faulted && t.cause.code = 2 && t.prog = []) = true := by decide

/-- V-F3, V-F4, V-F5. -/
theorem test_reserved :
    [Instr.reserved000, .reserved110, .reserved111].all (fun i =>
      nextAnd (exec i (ready [])) fun t => t.ctl = .faulted && t.cause.code = 1 && t.mem = []) = true := by
  decide

/-- The bits on the wire of what an instruction hands to the sequencer: the last column of V-C1 to V-C14. -/
def sentBits (i : Instr) : List Bool :=
  match exec i (fresh []) with
  | .next t => ((monitor t.pins (programCycles t.pins t.prog)).closed.map Transaction.bits).flatten
  | _ => []

/-- The bits of a text of zeros and ones. -/
def bits (l : List Nat) : List Bool := l.map (· == 1)

theorem test_normalMode : sentBits .normalMode = bits [1,0,0,1,1,1,0,0,0,1,1,0] := by decide +kernel
theorem test_testMode : sentBits .testMode = bits [1,0,0,1,1,1,0,0,0,0,0,0] := by decide +kernel
theorem test_oscOn : sentBits .oscOn = bits [1,0,0,0,0,0,0,0,0,0,1,0] := by decide +kernel
theorem test_oscRc : sentBits .oscRc = bits [1,0,0,0,0,0,1,1,0,0,0,0] := by decide +kernel
theorem test_oscXtal : sentBits .oscXtal = bits [1,0,0,0,0,0,1,0,1,0,0,0] := by decide +kernel
theorem test_oscExt : sentBits .oscExt = bits [1,0,0,0,0,0,1,1,1,0,0,0] := by decide +kernel
theorem test_biasOn : sentBits .biasOn = bits [1,0,0,0,0,0,0,0,0,1,1,0] := by decide +kernel
theorem test_biasOff : sentBits .biasOff = bits [1,0,0,0,0,0,0,0,0,1,0,0] := by decide +kernel
theorem test_wdtClear : sentBits .wdtClear = bits [1,0,0,0,0,0,0,1,1,1,0,0] := by decide +kernel
theorem test_biasCom : sentBits (.biasCom 3 1) = bits [1,0,0,0,0,1,0,1,1,0,1,0] := by decide +kernel
theorem test_wdtTimebase : sentBits (.wdtTimebase 7) = bits [1,0,0,1,0,1,0,0,1,1,1,0] := by
  decide +kernel

/-- R204 and V-T7. -/
theorem test_writeAddr0 : sentBits .writeAddr0 = bits [1,0,1,0,0,0,0,0,0] := by decide +kernel
theorem test_data16 : sentBits (.data16 0x1234) = bits [0,0,1,0,1,1,0,0,0,1,0,0,1,0,0,0] := by
  decide +kernel

/-! ## The receiver (R80) -/

/-- V-C10, V-R2: the class, the words and the rows of a command and of a refresh. -/
theorem test_receiver :
    (⟨bits [1,0,0,0,0,1,0,1,1,0,1,0], false⟩ : Transaction).instructions = some [.biasCom 3 1] ∧
    (⟨bits [1,0,1,0,0,0,0,0,0, 1,0,0,0,0,0,0,0, 0,0,0,0,0,0,0,1, 0,0,0,0,0,0,0,0, 1,1,1,1,1,1,1,1],
      false⟩ : Transaction).instructions =
        some [.writeAddr0, .data16 0x8001, .data16 0xFF00] := by decide +kernel

/-- V-X1: the class of a truncated command, which is no whole word; two bits and other bits tell
nothing. -/
theorem test_receiver_partial :
    (⟨bits [1,0,0,1,1], true⟩ : Transaction).kind = some .command ∧
    (⟨bits [1,0,0,1,1], true⟩ : Transaction).words = none ∧
    (⟨bits [1,0,1,0,0,0,0,0,0,1], true⟩ : Transaction).words = none ∧
    (⟨bits [1,0], true⟩ : Transaction).kind = none ∧
    (⟨bits [1,1,0,0], false⟩ : Transaction).kind = none := by decide

/-! ## One step of the controller -/

/-- V-X2, V-F7: a reset leaves a fault and clears the memory; what the host has in store stays. -/
theorem test_reset_edge :
    nextAnd (step { broken [.edge resetPorts, .present 0x0400] with mem := [(0, 1)] }) (fun t =>
      t = fresh [.present 0x0400]) = true := by decide +kernel

/-- V-F6: a request in `FAULTED` waits. -/
theorem test_faulted : nextAnd (step (broken [.present 0x0400])) (fun t =>
    t = broken [.present 0x0400]) = true := by decide +kernel

/-- R33: the status word of a block after reset, of a running one and of a faulted one. -/
theorem test_statusWord : (fresh []).statusWord false = 0b000_0001 ∧
    (running .init [clkLow] []).statusWord false = 0b000_0010 ∧
    (broken []).statusWord false = 0b011_1000 ∧ (ready []).statusWord true = 0b000_0100 := by decide

/-- R38: the ports of a running block with its select low, and of one held in reset. -/
theorem test_outputs :
    ({ running .init [clkLow] [] with pins := ⟨false, true, true⟩ } : State).outputs false =
      ⟨false, true, true, false, true, false, false, 0⟩ ∧
    (fresh []).outputs true = ⟨true, true, false, false, false, false, false, 0⟩ ∧
    (broken []).outputs false = ⟨true, true, false, false, false, false, true, 3⟩ := by decide

/-- The two places where the machine stops (log 12, 13). -/
theorem test_stops : (match step (running .init [] []) with
      | .fault .busyWithoutProgram => true
      | _ => false) = true ∧
    (match step (fresh [.wire (.wire9 6)]) with
      | .refused (.undecodableWireWord r) => r == .notWriteAddr0 6
      | _ => false) = true := by decide

/-! ## States and operands that meet the hypotheses of the statements -/

theorem witness_UnusedFieldsHaveNoEffect : let r : Request := 0x07AA; let r' : Request := 0x0400
    r.op = r'.op ∧ ¬(r.op = 0b010 ∨ r.op = 0b011 ∨ r.op = 0b100) ∧
    r.pos ≠ r'.pos ∧ r.arg ≠ r'.arg := by decide

/-- The assembler's words. -/
theorem witness_UnusedFieldsHaveNoEffect_words :
    requestWord (.wrdigs 9) = some 0x1009 ∧ requestWord .init = some 0x0400 ∧
    requestWord .oscOn = none := by decide

/-- WRDIGS uses `arg` and not `pos`. -/
theorem witness_UnusedFieldsHaveNoEffect_wrdigs :
    let r : Request := 0x1203; let r' : Request := 0x1003
    r.op = r'.op ∧ ¬(r.op = 0b010 ∨ r.op = 0b011) ∧ r.op = 0b100 ∧ r.arg = r'.arg ∧
    r.pos ≠ r'.pos := by decide

theorem witness_AssemblerWritesTheStatedWords : (3 < 4 ∧ 255 < 256) ∧ ¬(4 < 4 ∧ 0 < 256) ∧
    ¬(3 < 4 ∧ 256 < 256) ∧ ¬256 < 256 ∧ (AsmLine.setmem 3 255).assemble = some [0x0BFF] ∧
    (AsmLine.wrdig 3 255).assemble = some [0x0FFF] ∧ (AsmLine.wrdigs 255).assemble = some [0x10FF] ∧
    (AsmLine.wrdigs 256).assemble = none ∧ (AsmLine.showFour 0 0 256 0).assemble = none := by decide

theorem witness_CommandWordRoundTrip : cfg1.pCmd = 0b001 := by decide

theorem witness_TxPutsItsBitsOnTheWire : let m : Monitor := ⟨⟨false, true, false⟩, some [], [], 0⟩
    (16 ≤ 16) ∧ m.current = some [] ∧ m.last.csN = false ∧ 1 ≤ 16 := by decide

theorem witness_HighBitsAreNeverSent :
    ∀ i, i < 4 → (0xABCD#16).getLsbD i = (0x000D#16).getLsbD i := by decide

theorem witness_TxConcatenation : ((0b001#16).toNat < 2 ^ 3 ∧ 3 + 9 ≤ 16) ∧
    ((0xFFFF#16).toNat < 2 ^ 16 ∧ 16 + 0 ≤ 16) ∧ ((0#16).toNat < 2 ^ 0 ∧ 0 + 16 ≤ 16) := by decide

theorem witness_SendCmdIsOneTransaction : (⟨true, true, true⟩ : Pins).atRest = true := by decide

theorem witness_DelayIsNotBelowTheDesignValue :
    cfg1.delayMargin = 0 ∧ (defaultConfig 1).delayMargin = 0 ∧ delayCycles (defaultConfig 1) = 1 ∧
    delayCycles (defaultConfig 8001) = 2 := by decide

theorem witness_GlyphTable : let r := { cfg1 with orientation := Orientation.rotated180 }
    (cfg1.segBit = defaultSegBits ∧ cfg1.digitSegs = defaultDigitSegs ∧ cfg1.orientation = .normal) ∧
    (r.segBit = defaultSegBits ∧ r.digitSegs = defaultDigitSegs ∧ r.orientation = .rotated180) := by
  decide

theorem witness_GlyphLightsExactlyItsSegments : cfg1.wf = true ∧ 9 < (10#8).toNat ∧
    ∃ segs, cfg1.digitSegs[(9#8).toNat]? = some segs :=
  ⟨by decide, by decide, _, rfl⟩

theorem witness_ResetEdge :
    (broken [.edge resetPorts]).inputs = .edge resetPorts :: [] ∧ resetPorts.rst = true := by decide

theorem witness_ResetValues : (broken [.edge resetPorts]).resetNext = true ∧
    (⟨broken [.edge resetPorts], SeqRegs.reset⟩ : RegState).core.resetNext = true := by decide

theorem witness_StepRunsTheDecodedInstruction :
    let p : Ports := ⟨false, true, 0b010, 3, 255⟩
    (fresh [.present 0x0400]).ctl = .idle ∧
    (fresh [.present 0x0400]).inputs = .present 0x0400 :: [] ∧
    (fresh [.edge p]).inputs = .edge p :: [] ∧ p.rst = false ∧ p.reqValid = true ∧
    (fresh [.wire (.wire12 0x639)]).inputs = .wire (.wire12 0x639) :: [] ∧
    decodeWire (.wire12 0x639) = .ok .normalMode := by decide

theorem witness_FetchedWordIsRun :
    (fresh []).ctl = .idle ∧ decodeTableWord 16 0xFFFF = some (.data16 0xFFFF) := by decide

theorem witness_IdleWithoutRequestChangesNothing :
    (fresh []).ctl = .idle ∧ (fresh []).inputs = [] ∧
    (fresh [.edge .quiet]).inputs = .edge .quiet :: [] ∧ Ports.quiet.rst = false ∧
    Ports.quiet.reqValid = false := by decide

theorem witness_RequestWhileNotReadyChangesNothing :
    let p := Ports.presenting 0x0400
    p.reqValid = true ∧ (fresh []).reqReady p.rst = true ∧
    (running .init [clkLow] []).reqReady p.rst = false ∧ (broken []).reqReady p.rst = false ∧
    (fresh []).reqReady true = false := by decide

theorem witness_HeldRequestWaits :
    (running .init [clkLow] []).ctl ≠ .idle ∧ (broken []).ctl ≠ .idle ∧
    nextAnd (step (running .init [clkLow] [.present 0x0400]))
      (fun t => t.inputs = [.present 0x0400]) = true := by decide

theorem witness_BusyEdgeRunsTheHead :
    let s := fun p => running .init p [.present 0]
    (s [clkLow]).ctl = .busy ∧ (s [clkLow]).resetNext = false ∧
    (s [clkLow, .wait 1]).prog = clkLow :: [.wait 1] ∧ [MicroOp.wait 1] ≠ [] ∧
    (s [clkLow]).prog = [clkLow] ∧
    (s [.wait 2]).prog = .wait 2 :: [] ∧ 1 < 2 ∧
    (s [.wait 1, clkLow]).prog = .wait 1 :: [clkLow] ∧ [clkLow] ≠ [] ∧
    (s [.wait 1]).prog = [.wait 1] ∧ 1 ≤ 1 := by decide

theorem witness_FaultedHoldsUntilReset :
    (broken [.present 0]).ctl = .faulted ∧ (broken [.present 0]).resetNext = false := by decide

theorem witness_SetmemWritesItsByte : (2 : Nat) ≠ (3 : Position).toNat ∧ (0 : Nat) ≠ (3 : Position).toNat := by
  decide

/-- For INIT, REFRESH and their words: both values of `istate`. -/
theorem witness_istate : (fresh []).istate = .linesConfigured ∧ (ready []).istate = .chipConfigured := by
  decide

/-- For REFRESH: both byte orders. -/
theorem witness_wordOrder : cfg1.wordOrder = .little ∧ cfgBig.wordOrder = .big ∧
    ({ ready [] with cfg := cfgBig } : State).istate = .chipConfigured := by decide

theorem witness_RefreshIsItsThreeWords :
    (ready []).istate = .chipConfigured ∧ (ready []).cfg.wr0.extractLsb' 0 3 = 0b101 := by decide

theorem witness_FixedCommandsAreSent :
    (fresh []).cfg.pCmd = 0b001 ∧ (fresh []).cfg.cmdCode = defaultCodes := by decide

theorem witness_RefreshWordsAreSent :
    (finalPins (running .refresh (beginOps 1) []).pins (running .refresh (beginOps 1) []).prog).csN
      = false ∧
    (finalPins (fresh []).pins (fresh []).prog).csN = true := by decide

theorem witness_BusProgramRunsToItsEnd :
    let s := running .init [clkHigh, .wait 1] [.present 0x1400]
    s.ctl = .busy ∧ s.prog ≠ [] ∧ delaysOk (delayCycles s.cfg) s.prog = true ∧
    s.requestsOnly = true ∧ 0 < progEdges s.prog := by decide

theorem witness_InitRunsItsSixTransactions :
    let s := fresh [.present 0x0400, .present 0x1400]; let r : Request := 0x0400
    s.ctl = .idle ∧ s.istate = .linesConfigured ∧ s.pins.atRest = true ∧
    s.inputs = .present r :: [.present 0x1400] ∧ r.op = 0b001 ∧
    ({ s with inputs := [.present 0x1400] }).requestsOnly = true := by decide

theorem witness_RefreshRunsItsTransaction :
    let s := ready [.present 0x1400]; let r : Request := 0x1400
    s.ctl = .idle ∧ s.istate = .chipConfigured ∧ s.pins.atRest = true ∧
    s.inputs = .present r :: [] ∧ r.op = 0b101 ∧
    ({ s with inputs := [] }).requestsOnly = true := by decide

/-- A block running its last micro-op, with the invariant. -/
theorem witness_StepKeepsInvariant :
    (running .init [.wait 1] [.wire (.wire9 5)]).Inv ∧
    nextAnd (step (running .init [.wait 1] [.wire (.wire9 5)])) (fun t => t.inited) = true :=
  ⟨⟨by decide, by decide, by decide, by decide, by decide, by decide, by decide, by decide, by decide⟩,
    by decide⟩

/-- A block that has just launched an INIT, with the host invariant. -/
theorem witness_StepKeepsHostInvariant :
    (running .init (initProg cfg1) [.present 0x1400]).HostInv ∧
    nextAnd (step (running .init (initProg cfg1) [.present 0x1400])) (fun t => t.busy) = true :=
  ⟨⟨by decide, fun h => absurd rfl h, fun _ => ⟨initProg_ne_nil _, 0, .inl ⟨rfl, rfl⟩⟩⟩, by decide +kernel⟩

theorem witness_ResetHasHostInvariant :
    [Stimulus.edge resetPorts, .present 0x0400].all Stimulus.ofHost = true := by decide

theorem witness_HostNeverStopsTheMachine :
    (running .init [.wait 1] [.present 0]).Inv ∧
    (running .init [.wait 1] [.present 0]).hostDriven = true :=
  ⟨⟨by decide, by decide, by decide, by decide, by decide, by decide, by decide, by decide, by decide⟩,
    by decide⟩

/-- The initialization state changes at an INIT's completing edge, and at a reset. -/
theorem witness_IstateChangesOnlyByInitOrReset :
    nextAnd (step (running .init [.wait 1] [])) (fun t => t.istate ≠ .linesConfigured) = true ∧
    nextAnd (step (ready [.edge resetPorts])) (fun t => t.istate ≠ .chipConfigured) = true := by decide

/-- The memory changes at an accepted SETMEM, and at a reset. -/
theorem witness_MemoryChangesOnlyByItsRequests :
    nextAnd (step (fresh [.present 0x0801])) (fun t => t.mem ≠ []) = true ∧
    nextAnd (step { fresh [.edge resetPorts] with mem := [(3, 1)] }) (fun t => t.mem ≠ [(3, 1)]) = true := by
  decide

/-- The pins change at an act, and at a reset. -/
theorem witness_PinsChangeOnlyByActs :
    nextAnd (step (running .init [beginAct, .wait 1] [])) (fun t => t.pins ≠ ⟨true, true, false⟩) = true ∧
    nextAnd (step { running .init [.wait 1] [.edge resetPorts] with pins := ⟨false, false, true⟩ })
      (fun t => t.pins ≠ ⟨false, false, true⟩) = true := by decide

/-- Each of the three faults is entered. -/
theorem witness_FaultsOnlyFromContractViolations :
    nextAnd (step (fresh [.present 0x0000])) (fun t => t.ctl = .faulted && t.cause = .illegalOp) = true ∧
    nextAnd (step (fresh [.present 0x1400])) (fun t => t.ctl = .faulted && t.cause = .notInitialized)
      = true ∧
    nextAnd (step (ready [.present 0x0400])) (fun t => t.ctl = .faulted && t.cause = .reinit) = true := by
  decide

theorem witness_FaultIsLeftOnlyByReset :
    nextAnd (step (broken [.edge resetPorts])) (fun t => t.ctl = .idle) = true ∧
    nextAnd (step (broken [])) (fun t => t.ctl = .faulted) = true := by decide

theorem witness_ParametersNeverChange :
    nextAnd (step (fresh [.present 0x0801])) (fun t => t.cfg = cfg1) = true := by decide +kernel

/-- The realization in the middle of a bit of the last command of an INIT. -/
theorem witness_RealizationSimulatesTheListForm :
    (⟨running .init [] [.present 0], ⟨.lowWait, 5, 0, 0x381, 12, 1⟩⟩ : RegState).Ok :=
  ⟨by decide, by decide, by decide, by decide, by decide, by decide, by decide⟩

theorem witness_RealizationDrivesTheSameOutputs :
    [Stimulus.present 0x0400, .present 0x1000, .present 0x1400].all Stimulus.ofHost = true := by decide

end Sys2Proof.Tests
end

section
/-! Bit reversal (R8): what bit `i` of `rev v` is, and that `rev` is its own inverse. -/

namespace Sys2Proof.Machine

/-- R8's definition of `rev_n`, bit by bit. -/
theorem getLsbD_rev {n : Nat} (v : BitVec n) {i : Nat} (hi : i < n) :
    (rev v).getLsbD i = v.getLsbD (n - 1 - i) := by
  calc (rev v).getLsbD i
      = v.getMsbD i := BitVec.getLsbD_reverse
    _ = v.getLsbD (n - 1 - i) := by simp [BitVec.getMsbD_eq_getLsbD, hi]

@[simp] theorem rev_rev {n : Nat} (v : BitVec n) : rev (rev v) = v :=
  BitVec.reverse_reverse_eq

/-- Settles O7: R8's defining equation, and the inverse law R8 derives from it. -/
theorem reversalIsItsOwnInverse : Obligations.ReversalIsItsOwnInverse :=
  fun _ v => ⟨rev_rev v, fun _ hi => getLsbD_rev v hi⟩

end Sys2Proof.Machine
end

section
/-! The reset values (R35) and the output ports (R33, R38). -/

namespace Sys2Proof.Machine

/-! ## A reset edge (R290) -/

/-- An edge that samples `rst = 1` sampled the ports. -/
theorem State.sample_of_resetNext {s : State} (h : s.resetNext = true) :
    ∃ p rest, s.sample = (.ports p, rest) ∧ p.rst = true := by
  rcases hs : s.sample with ⟨p | w, rest⟩
  · exact ⟨p, rest, rfl, by simpa [State.resetNext, hs] using h⟩
  · simp [State.resetNext, hs] at h

theorem step_of_resetNext {s : State} (h : s.resetNext = true) :
    ∃ rest, step s = .next (State.resetOf s.cfg rest) := by
  obtain ⟨p, rest, hs, hr⟩ := State.sample_of_resetNext h
  exact ⟨rest, by rw [step_of_ports hs, portsEdge_rst _ hr]; rfl⟩

theorem RegState.step_of_resetNext {r : RegState} (h : r.core.resetNext = true) :
    ∃ rest, r.step = RegState.resetOf r.core.cfg rest := by
  obtain ⟨p, rest, hs, hr⟩ := State.sample_of_resetNext h
  exact ⟨rest, by simp [RegState.step, hs, hr, RegState.resetOf, State.resetEdge]⟩

/-- The table of R35, for every build and all inputs to come. -/
theorem State.resetOf_values (c : Config) (l : List Stimulus) :
    (State.resetOf c l).pins = ⟨true, true, false⟩ ∧
    (∀ p : Position, (State.resetOf c l).byteAt p = 0) ∧
    (State.resetOf c l).istate = .linesConfigured ∧ (State.resetOf c l).ctl = .idle ∧
    (State.resetOf c l).curOp = .none ∧ (State.resetOf c l).prog = [] ∧
    (State.resetOf c l).fault = false ∧ (State.resetOf c l).cause.code = 0 :=
  ⟨rfl, fun _ => rfl, rfl, rfl, rfl, rfl, rfl, rfl⟩

/-- Settles O23: a reset edge of either machine gives the state of R35. -/
theorem resetValues : Obligations.ResetValues := by
  refine ⟨State.resetOf_values _ _, fun s h => ?_, fun r h => ?_⟩
  · obtain ⟨rest, hstep⟩ := step_of_resetNext h
    exact ⟨_, hstep, State.resetOf_values _ _⟩
  · obtain ⟨rest, hstep⟩ := RegState.step_of_resetNext h
    rw [hstep]
    exact ⟨State.resetOf_values _ _, rfl⟩

theorem State.hostInv_resetOf (c : Config) {l : List Stimulus}
    (h : l.all Stimulus.ofHost = true) : (State.resetOf c l).HostInv :=
  ⟨h, fun _ => ⟨rfl, rfl⟩, nofun⟩

/-- Settles O50: after reset no program runs, and the inputs are a host's. -/
theorem resetHasHostInvariant : Obligations.ResetHasHostInvariant :=
  ⟨fun c _ h => State.hostInv_resetOf c h, State.hostInv_resetOf _ rfl⟩

/-! ## The output ports -/

theorem State.reqReady_iff (s : State) (rst : Bool) :
    s.reqReady rst = true ↔ s.ctl = .idle ∧ rst = false := by
  simp [State.reqReady]

theorem State.busy_iff (s : State) : s.busy = true ↔ s.ctl = .busy := by
  simp [State.busy]

theorem State.inited_iff (s : State) : s.inited = true ↔ s.istate = .chipConfigured := by
  simp [State.inited]

/-- Settles O60: each port is a field of the state, or a flag on one. -/
theorem outputsAreDrivenByTheState : Obligations.OutputsAreDrivenByTheState := by
  intro s rst
  refine ⟨rfl, rfl, rfl, s.reqReady_iff rst, s.busy_iff, s.inited_iff, rfl, ?_⟩
  show s.cause.code = _
  cases s.cause <;> rfl

/-! ## The status word (R33) -/

/-- R33's layout: the code of the cause, then one flag after the other, the last in bit 0. -/
theorem State.statusWord_eq_concat (s : State) (rst : Bool) :
    s.statusWord rst =
      (((s.cause.code.concat s.fault).concat s.inited).concat s.busy).concat (s.reqReady rst) := rfl

theorem State.getLsbD_statusWord (s : State) (rst : Bool) :
    (s.statusWord rst).getLsbD 0 = s.reqReady rst ∧ (s.statusWord rst).getLsbD 1 = s.busy ∧
    (s.statusWord rst).getLsbD 2 = s.inited ∧ (s.statusWord rst).getLsbD 3 = s.fault := by
  simp only [State.statusWord_eq_concat, BitVec.getLsbD_concat_zero, BitVec.getLsbD_concat_succ,
    and_self]

theorem State.extractLsb'_statusWord (s : State) (rst : Bool) :
    (s.statusWord rst).extractLsb' 4 3 = s.cause.code := by
  refine BitVec.eq_of_getLsbD_eq fun i hi => ?_
  simp only [BitVec.getLsbD_extractLsb', State.statusWord_eq_concat, Nat.add_comm 4,
    BitVec.getLsbD_concat_succ, hi, decide_true, Bool.true_and]

/-- After a reset `req_ready`, in bit 0, is the one bit that can be 1. -/
theorem State.statusWord_resetOf (c : Config) (l : List Stimulus) (rst : Bool) :
    (State.resetOf c l).statusWord rst = BitVec.ofNat 7 (!rst).toNat := by
  have hready : (State.resetOf c l).reqReady rst = !rst := by simp [State.reqReady, State.resetOf]
  rw [State.statusWord_eq_concat, hready]
  change ((((0#3).concat false).concat false).concat false).concat (!rst) = _
  cases rst <;> decide

/-- The codes 4 to 7 are never produced (R261). -/
theorem FaultCause.code_lt (c : FaultCause) : c.code.toNat < 4 := by
  cases c <;> decide

/-- Settles O31: each bit read from the layout, and each flag from the state. -/
theorem statusWordFields : Obligations.StatusWordFields := by
  refine ⟨fun s rst => ?_, fun c l =>
    ⟨State.statusWord_resetOf c l false, State.statusWord_resetOf c l true⟩⟩
  obtain ⟨hready, hbusy, hinited, hfault⟩ := s.getLsbD_statusWord rst
  simp only [hready, hbusy, hinited]
  exact ⟨s.reqReady_iff rst, s.busy_iff, s.inited_iff, hfault, s.extractLsb'_statusWord rst,
    s.cause.code_lt⟩

end Sys2Proof.Machine
end

section
/-! The invariant of the block: it holds after reset, and each case of a step keeps it. -/

namespace Sys2Proof.Machine

/-! ## Reset -/

theorem State.inv_resetOf (c : Config) (l : List Stimulus) : (State.resetOf c l).Inv where
  memory := rfl
  fault := by simp [State.resetOf]
  cause := by simp [State.resetOf]
  atRest _ := ⟨rfl, rfl⟩
  running h := nomatch h
  delays := rfl
  lines := rfl
  initFirst h := nomatch h
  refreshAfter h := nomatch h

/-- Settles O48: `State.reset` is the default build after a reset edge. -/
theorem resetHasInvariant : Obligations.ResetHasInvariant :=
  ⟨State.inv_resetOf, State.inv_resetOf _ _⟩

/-! ## The inputs have no part in the invariant -/

theorem State.Inv.withInputs {s : State} (h : s.Inv) (l : List Stimulus) :
    ({ s with inputs := l } : State).Inv :=
  ⟨h.memory, h.fault, h.cause, h.atRest, h.running, h.delays, h.lines, h.initFirst, h.refreshAfter⟩

/-- Outside `FAULTED` there is no fault (R29). -/
theorem State.Inv.fault_eq_false {s : State} (h : s.Inv) (hc : s.ctl ≠ .faulted) :
    s.fault = false :=
  Bool.eq_false_iff.mpr (mt h.fault.mp hc)

/-! ## `IDLE`: no program, and the lines at rest -/

section Idle
variable {s : State} (h : s.Inv) (hi : s.ctl = .idle)
include h hi

theorem State.Inv.idle_prog : s.prog = [] := (h.atRest (by simp [hi])).1

theorem State.Inv.idle_curOp : s.curOp = .none := (h.atRest (by simp [hi])).2

theorem State.Inv.idle_pins : s.pins.atRest = true := by
  have hl := h.lines
  rwa [h.idle_prog hi] at hl

/-- A program that starts in `IDLE` keeps the invariant, if it keeps delays and lines in order and
its request fits the initialization state. -/
theorem State.Inv.launch {o : CurOp} {l : List MicroOp} (hne : l ≠ [])
    (hd : delaysOk (delayCycles s.cfg) l = true) (hl : linesOk s.pins l = true)
    (hinit : o = .init → s.istate = .linesConfigured)
    (hrefresh : o = .refresh → s.istate = .chipConfigured) : (s.launch o l).Inv where
  memory := h.memory
  fault := by simp [h.fault_eq_false, hi]
  cause := h.cause
  atRest hb := absurd rfl hb
  running _ := hne
  delays := hd
  lines := hl
  initFirst := hinit
  refreshAfter := hrefresh

/-- In `IDLE`, micro-ops handed to the sequencer are a program of their own. -/
theorem State.Inv.emit_eq_launch (l : List MicroOp) : s.emit l = s.launch .none l := by
  simp [State.emit, State.launch, h.idle_prog hi, h.idle_curOp hi]

/-- One word in a transaction of its own (R129): a command, or a word the model sends by itself
(log 4). -/
theorem State.Inv.emit_word (v : TxValue) (n : Nat) :
    (s.emit (bracket (delayCycles s.cfg) (tx (delayCycles s.cfg) v n))).Inv := by
  have hd := one_le_delayCycles s.cfg
  rw [h.emit_eq_launch hi]
  exact h.launch hi (bracket_ne_nil _ _) (delaysOk_bracket hd (delaysOk_tx hd v n))
    (linesOk_bracket_tx s.pins (h.idle_pins hi) _ v n) nofun nofun

/-- In `IDLE` no transaction is open. -/
theorem State.Inv.idle_transactionOpen : s.transactionOpen = false := by
  have hp := h.idle_pins hi
  rw [Pins.atRest, Bool.and_eq_true] at hp
  simp [State.transactionOpen, h.idle_prog hi, finalPins, hp.1]

theorem State.Inv.raiseFault {c : FaultCause} (hc : c ≠ .none) : (s.raiseFault c).Inv where
  memory := h.memory
  fault := by simp
  cause := by simp [hc]
  atRest _ := ⟨h.idle_prog hi, h.idle_curOp hi⟩
  running hb := nomatch hb
  delays := h.delays
  lines := h.lines
  initFirst := h.initFirst
  refreshAfter := h.refreshAfter

/-- An instruction performed in `IDLE` keeps the invariant. -/
theorem State.Inv.exec {t : State} {i : Instr} (he : exec i s = .next t) : t.Inv := by
  cases exec_cases he with
  | memory result wf =>
    rw [result]
    exact ⟨wf h.memory, h.fault, h.cause, h.atRest, h.running, h.delays, h.lines, h.initFirst,
      h.refreshAfter⟩
  | fault c cause result => rw [result]; exact h.raiseFault hi cause
  | launchInit istate result =>
    rw [result]
    exact h.launch hi (initProg_ne_nil _) (delaysOk_initProg _)
      (linesOk_initProg _ (h.idle_pins hi) _) (fun _ => istate) nofun
  | launchRefresh istate result =>
    rw [result]
    exact h.launch hi (refreshProg_ne_nil _ _ _) (delaysOk_refreshProg _ _ _)
      (linesOk_refreshProg _ (h.idle_pins hi) _ _ _) nofun (fun _ => istate)
  | command code result => rw [result]; exact h.emit_word hi _ _
  | word v n result =>
    rw [result, State.sendWord, h.idle_transactionOpen hi]
    exact h.emit_word hi v n

end Idle

/-! ## `BUSY` -/

/-- One edge of a bus program keeps the invariant, at the completing edge too. -/
theorem State.Inv.runEdge {s : State} (h : s.Inv) (hb : s.ctl = .busy) (hp : s.prog ≠ []) :
    ({ s with pins := headPins s.pins s.prog }.advanceTo (afterEdge s.prog)).Inv := by
  have hd := (afterEdge_delays h.delays hp).1
  have hl := linesOk_edge s.pins s.prog hp h.lines
  by_cases hr : afterEdge s.prog = []
  · rw [hr] at hl ⊢
    exact {
      memory := h.memory
      fault := by simp [h.fault_eq_false, hb]
      cause := h.cause
      atRest := fun _ => ⟨rfl, rfl⟩
      running := nofun
      delays := rfl
      lines := hl
      initFirst := nofun
      refreshAfter := nofun }
  · rw [State.advanceTo_of_ne_nil _ hr]
    exact ⟨h.memory, h.fault, h.cause, fun hn => absurd hb hn, fun _ => hr, hd, hl, h.initFirst,
      h.refreshAfter⟩

/-! ## The step -/

/-- Settles O47, by the cases of a step (R100). -/
theorem stepKeepsInvariant : Obligations.StepKeepsInvariant := by
  intro s t h hstep
  cases step_cases hstep with
  | reset p rest _ _ result => rw [result]; exact State.inv_resetOf _ _
  | accept p rest _ _ idle _ result => exact (h.withInputs rest).exec idle result
  | idle p rest _ _ _ _ result => rw [result]; exact h.withInputs rest
  | run p rest _ _ busy prog result => rw [result]; exact (h.withInputs rest).runEdge busy prog
  | faulted p rest _ _ _ result => rw [result]; exact h.withInputs rest
  | wire w rest i _ idle _ result => exact (h.withInputs rest).exec idle result

end Sys2Proof.Machine
end

section
/-! What a step can change, one field at a time: the build, the initialization state, the display
memory and the pins. -/

namespace Sys2Proof.Machine

/-- Settles O57: the build is in the frame of every case of a step. -/
theorem parametersNeverChange : Obligations.ParametersNeverChange := by
  intro s t hstep
  cases step_cases hstep with
  | reset _ _ _ _ result => rw [result]; rfl
  | accept _ _ _ _ _ _ result => exact (exec_frame result).2.2.2
  | idle _ _ _ _ _ _ result => rw [result]
  | run _ _ _ _ _ _ result => rw [result, State.advanceTo_cfg]
  | faulted _ _ _ _ _ result => rw [result]
  | wire _ _ _ _ _ _ result => exact (exec_frame result).2.2.2

/-- A program's edge changes `istate` only when it completes an INIT (R105, R243). -/
theorem State.advanceTo_istate_ne {s : State} {l : List MicroOp}
    (h : (s.advanceTo l).istate ≠ s.istate) :
    s.curOp = .init ∧ (s.advanceTo l).ctl = .idle ∧
      (s.advanceTo l).istate = .chipConfigured := by
  by_cases hl : l = []
  · subst hl
    by_cases hc : s.curOp = .init
    · simp [hc]
    · simp [hc] at h
  · simp [State.advanceTo_of_ne_nil s hl] at h

/-- Settles O52: only the completing edge of an INIT, or a reset, is left by the frames. -/
theorem istateChangesOnlyByInitOrReset : Obligations.IstateChangesOnlyByInitOrReset := by
  intro s t hstep hne
  cases step_cases hstep with
  | reset p _ sampled rst result =>
    rw [State.resetNext_of_ports sampled, result]
    exact .inl ⟨rst, rfl⟩
  | accept _ _ _ _ _ _ result => exact absurd (exec_frame result).2.1 hne
  | idle _ _ _ _ _ _ result => exact absurd (by rw [result]) hne
  | run _ _ _ _ busy _ result =>
    rw [result] at hne ⊢
    exact .inr ⟨busy, State.advanceTo_istate_ne hne⟩
  | faulted _ _ _ _ _ result => exact absurd (by rw [result]) hne
  | wire _ _ _ _ _ _ result => exact absurd (exec_frame result).2.1 hne

/-- An instruction that writes the display memory is one of the three that R24 names. -/
theorem exec_mem_ne {i : Instr} {s t : State} (h : exec i s = .next t) (hne : t.mem ≠ s.mem) :
    (∃ p v, i = .setmem p v) ∨ (∃ p d, i = .wrdig p d) ∨ ∃ d, i = .wrdigs d := by
  cases i with
  | setmem p v => exact .inl ⟨p, v, rfl⟩
  | wrdig p d => exact .inr (.inl ⟨p, d, rfl⟩)
  | wrdigs d => exact .inr (.inr ⟨d, rfl⟩)
  | init | refresh =>
    simp only [exec, execInit, execRefresh] at h
    split at h <;> cases h <;> exact absurd rfl hne
  | _ => cases h; exact absurd rfl hne

/-- What the block accepts in `IDLE` (R101). -/
theorem State.accepts_of_ports {s : State} {p : Ports} {rest : List Stimulus}
    (h : s.sample = (.ports p, rest)) (hr : p.rst = false) (hi : s.ctl = .idle)
    (hv : p.reqValid = true) : s.accepts = some p.request := by
  simp [State.accepts, State.reqReady, h, hr, hi, hv]

/-- Settles O53: of the requests only the three of R24 write, and a wire word only hands micro-ops
to the sequencer. -/
theorem memoryChangesOnlyByItsRequests : Obligations.MemoryChangesOnlyByItsRequests := by
  intro s t hstep hne
  cases step_cases hstep with
  | reset p _ sampled rst _ => exact .inl ((State.resetNext_of_ports sampled).trans rst)
  | accept p _ sampled rst idle valid result =>
    exact .inr ⟨p.request, State.accepts_of_ports sampled rst idle valid, exec_mem_ne result hne⟩
  | idle _ _ _ _ _ _ result => exact absurd (by rw [result]) hne
  | run _ _ _ _ _ _ result => exact absurd (by rw [result, State.advanceTo_mem]) hne
  | faulted _ _ _ _ _ result => exact absurd (by rw [result]) hne
  | wire _ _ _ _ _ decoded result =>
    obtain ⟨l, rfl⟩ := exec_of_decodeWire decoded result
    exact absurd rfl hne

/-- A program whose head moves a pin has an act there (R104). -/
theorem headPins_ne {p : Pins} {l : List MicroOp} (h : headPins p l ≠ p) :
    ∃ u rest, l = .act u :: rest ∧ headPins p l = u.apply p := by
  match l with
  | [] => exact absurd rfl h
  | .act u :: rest => exact ⟨u, rest, rfl, rfl⟩
  | .wait _ :: _ => exact absurd rfl h

/-- Settles O54: outside a reset only an edge of a program moves the pins, by its head's act. -/
theorem pinsChangeOnlyByActs : Obligations.PinsChangeOnlyByActs := by
  intro s t hstep hne
  cases step_cases hstep with
  | reset p _ sampled rst _ => exact .inl ((State.resetNext_of_ports sampled).trans rst)
  | accept _ _ _ _ _ _ result => exact absurd (exec_frame result).1 hne
  | idle _ _ _ _ _ _ result => exact absurd (by rw [result]) hne
  | run _ _ _ _ busy _ result =>
    rw [result, State.advanceTo_pins] at hne ⊢
    obtain ⟨u, rest, hprog, hpins⟩ := headPins_ne hne
    exact .inr ⟨u, rest, busy, hprog, hpins⟩
  | faulted _ _ _ _ _ result => exact absurd (by rw [result]) hne
  | wire _ _ _ _ _ _ result => exact absurd (exec_frame result).1 hne

end Sys2Proof.Machine
end

section
/-! The register realization (R28): one edge of the registers is one edge of the list form. -/

namespace Sys2Proof.Machine

/-! ## The registers' program, case by case -/

/-- A word loaded into the shift register stands for itself and all that follows it (R143). -/
theorem RegState.program_load (s : State) (q : SeqRegs) (txn : Fin 6) (word : Fin 3) :
    (⟨s, q.load s txn word⟩ : RegState).program =
      wordsFrom s txn word ++ endOps (delayCycles s.cfg) ++ txnsAfter s txn := by
  rw [wordsFrom_cons, List.append_assoc, List.append_assoc, ← List.append_assoc (wordsAfter ..)]
  rfl

/-- No phase, no program: the list form is the state beside the registers. -/
theorem RegState.Ok.listForm_eq {r : RegState} (h : r.Ok) (hc : r.core.ctl ≠ .busy) :
    r.listForm = r.core := by
  have hph : r.regs.phase = .idle := not_not.mp (mt h.running.mpr hc)
  simp [RegState.listForm, RegState.program, hph, ← h.unused]

/-! ## One edge of the list form -/

/-- An act at the head of the program, with micro-ops after it. -/
theorem RegState.runEdge_listForm_act {r : RegState} {u : PinUpdate} {regs : SeqRegs}
    {l : List MicroOp} (hp : r.program = .act u :: l) (hl : l ≠ [])
    (hd : (r.drive u regs).program = l) :
    r.listForm.runEdge = .next (r.drive u regs).listForm := by
  simp only [State.runEdge, RegState.listForm, hp, hd, State.advanceTo_of_ne_nil _ hl]
  rfl

/-- A delay at the head of the program: it counts down, or it is `done`. -/
theorem RegState.runEdge_listForm_wait {r done : RegState} {l : List MicroOp}
    (hp : ∀ k, ({ r with regs.dcnt := k } : RegState).program = .wait k :: l)
    (hd : r.listForm.advanceTo l = done.listForm) :
    r.listForm.runEdge = .next (r.waitOr done).listForm := by
  have hprog : r.listForm.prog = .wait r.regs.dcnt :: l := hp r.regs.dcnt
  simp only [State.runEdge, hprog, RegState.waitOr]
  by_cases hk : r.regs.dcnt > 1
  · simp only [hk, if_true, RegState.listForm, hp]
    rw [State.advanceTo_of_ne_nil _ (List.cons_ne_nil _ _)]
  · simp only [hk, if_false, hd]

/-- At the end of a delay the registers take up what is left of the program. -/
theorem RegState.advanceTo_listForm {r : RegState} {regs : SeqRegs} {l : List MicroOp}
    (hl : l ≠ []) (hp : ({ r with regs := regs } : RegState).program = l) :
    r.listForm.advanceTo l = ({ r with regs := regs } : RegState).listForm := by
  rw [State.advanceTo_of_ne_nil _ hl]
  simp only [RegState.listForm, hp]

/-- One edge in `BUSY`, phase by phase (R104, R123, R124, R141). -/
theorem RegState.Ok.runEdge_listForm {r : RegState} (h : r.Ok) (hb : r.core.ctl = .busy) :
    r.listForm.runEdge = .next r.runEdge.listForm := by
  have hphase := h.running.mp hb
  have hbits := h.inBit
  obtain ⟨s, phase, txn, word, sr, bcnt, dcnt⟩ := r
  cases phase with
  | idle => exact absurd rfl hphase
  | beginAct => exact runEdge_listForm_act rfl (List.cons_ne_nil _ _) rfl
  | beginWait =>
    refine runEdge_listForm_wait (fun _ => rfl) (advanceTo_listForm ?_ (program_load ..))
    simp [endOps]
  | clkLow =>
    refine runEdge_listForm_act ?_ (List.cons_ne_nil _ _) rfl
    have hpos := (bcnt_sub_one bcnt (hbits rfl)).2
    simp only [RegState.program, tx_of_pos _ _ hpos]
    rfl
  | setData => exact runEdge_listForm_act rfl (List.cons_ne_nil _ _) rfl
  | lowWait =>
    exact runEdge_listForm_wait (fun _ => rfl) (advanceTo_listForm (List.cons_ne_nil _ _) rfl)
  | clkHigh =>
    refine runEdge_listForm_act rfl (List.cons_ne_nil _ _) ?_
    rw [← (bcnt_sub_one bcnt (hbits rfl)).1]
    rfl
  | highWait =>
    refine runEdge_listForm_wait
      (l := tx (delayCycles s.cfg) sr bcnt.toNat ++
        afterWord s ⟨.highWait, txn, word, sr, bcnt, dcnt⟩) (fun _ => rfl) ?_
    by_cases hbc : bcnt ≠ 0
    · rw [if_pos hbc]
      exact advanceTo_listForm (by simp [afterWord_ne_nil]) rfl
    · obtain rfl := not_not.mp hbc
      rw [if_neg hbc]
      cases hw : moreWords s word with
      | true =>
        refine advanceTo_listForm (afterWord_ne_nil _ _) ((program_load ..).trans ?_)
        simp [afterWord, wordsAfter, hw]
      | false =>
        refine advanceTo_listForm (afterWord_ne_nil _ _) ?_
        simp [RegState.program, afterWord, wordsAfter, hw]
  | endAct => exact runEdge_listForm_act rfl (List.cons_ne_nil _ _) rfl
  | endWait =>
    refine runEdge_listForm_wait (l := txnsAfter s txn) (fun _ => rfl) ?_
    cases ht : moreTxns s txn with
    | true =>
      rw [txnsAfter_of_more s txn ht]
      exact advanceTo_listForm (by simp [beginOps]) rfl
    | false =>
      rw [txnsAfter_of_last s txn ht]
      rfl

/-! ## The registers stay such as a host's block can hold -/

theorem RegState.ok_resetOf (c : Config) {l : List Stimulus} (hl : l.all Stimulus.ofHost = true) :
    (RegState.resetOf c l).Ok where
  driven := hl
  unused := rfl
  running := by simp [RegState.resetOf, State.resetOf, SeqRegs.reset]
  request := nofun
  delay := nofun
  bits := Nat.zero_le 16
  inBit := nofun

theorem RegState.Ok.withInputs {r : RegState} (h : r.Ok) {l : List Stimulus}
    (hl : l.all Stimulus.ofHost = true) : ({ r with core.inputs := l } : RegState).Ok :=
  ⟨hl, h.unused, h.running, h.request, h.delay, h.bits, h.inBit⟩

/-- Outside `BUSY` nothing but the inputs, the empty program and `ctl` is asked of the state. -/
theorem RegState.Ok.withCore {r : RegState} (h : r.Ok) (hc : r.core.ctl ≠ .busy) {t : State}
    (hin : t.inputs = r.core.inputs) (hprog : t.prog = r.core.prog) (hcfg : t.cfg = r.core.cfg)
    (ht : t.ctl ≠ .busy) : ({ r with core := t } : RegState).Ok where
  driven := hin ▸ h.driven
  unused := hprog.trans h.unused
  running := iff_of_false ht (mt h.running.mpr hc)
  request hb := absurd hb ht
  delay := hcfg ▸ h.delay
  bits := h.bits
  inBit := h.inBit

/-- At the completing edge the registers are as after a reset (R35, R105). -/
theorem RegState.Ok.complete {r : RegState} (h : r.Ok) :
    (⟨r.core.complete, SeqRegs.reset⟩ : RegState).Ok where
  driven := h.driven
  unused := rfl
  running := by simp [SeqRegs.reset]
  request := nofun
  delay := nofun
  bits := Nat.zero_le 16
  inBit := nofun

section Busy
variable {r : RegState} (h : r.Ok) (hb : r.core.ctl = .busy)
include h hb

/-- An edge in `BUSY` that stays in `BUSY`: pins and registers move. -/
theorem RegState.Ok.move (p : Pins) {q : SeqRegs} (hph : q.phase ≠ .idle)
    (hdelay : q.phase.isWait = true → 1 ≤ q.dcnt ∧ q.dcnt ≤ delayCycles r.core.cfg)
    (hbits : q.bcnt.toNat ≤ 16) (hin : q.phase.inBit = true → q.bcnt ≠ 0) :
    (⟨{ r.core with pins := p }, q⟩ : RegState).Ok where
  driven := h.driven
  unused := h.unused
  running := iff_of_true hb hph
  request := h.request
  delay := hdelay
  bits := hbits
  inBit := hin

/-- A word starts with all its bits still to send (R143). -/
theorem RegState.Ok.load (txn : Fin 6) (word : Fin 3) :
    ({ r with regs := r.regs.load r.core txn word } : RegState).Ok :=
  h.move hb r.core.pins (q := r.regs.load r.core txn word) nofun nofun
    (wordOf_bits r.core txn word).2 (fun _ => (wordOf_bits r.core txn word).1)

/-- A delay starts at `D`. -/
theorem RegState.Ok.startWait (p : Pins) {q : SeqRegs} {ph : Phase} (hph : ph ≠ .idle)
    (hbits : q.bcnt.toNat ≤ 16) (hin : ph.inBit = true → q.bcnt ≠ 0) :
    (⟨{ r.core with pins := p }, q.startWait r.core ph⟩ : RegState).Ok :=
  h.move hb p (q := q.startWait r.core ph) hph
    (fun _ => ⟨one_le_delayCycles _, Nat.le_refl _⟩) hbits hin

/-- A running delay counts down within its bounds. -/
theorem RegState.Ok.waitOr {done : RegState} (hw : r.regs.phase.isWait = true) (hd : done.Ok) :
    (r.waitOr done).Ok := by
  unfold RegState.waitOr
  split
  case isTrue hk =>
    have hle := (h.delay hw).2
    exact h.move hb r.core.pins (q := { r.regs with dcnt := r.regs.dcnt - 1 })
      (h.running.mp hb) (fun _ => ⟨by dsimp; omega, by dsimp; omega⟩) h.bits h.inBit
  case isFalse => exact hd

/-- One edge in `BUSY`, phase by phase. -/
theorem RegState.Ok.runEdge : r.runEdge.Ok := by
  have hphase := h.running.mp hb
  have hbits := h.bits
  have hin := h.inBit
  obtain ⟨s, phase, txn, word, sr, bcnt, dcnt⟩ := r
  cases phase with
  | idle => exact absurd rfl hphase
  | beginAct => exact h.startWait hb _ nofun hbits nofun
  | beginWait => exact h.waitOr hb rfl (h.load hb _ _)
  | clkLow => exact h.move hb _ nofun nofun hbits (fun _ => hin rfl)
  | setData => exact h.startWait hb _ nofun hbits (fun _ => hin rfl)
  | lowWait =>
    exact h.waitOr hb rfl (h.move hb _ nofun nofun hbits (fun _ => hin rfl))
  | clkHigh =>
    have hdown := (bcnt_sub_one bcnt (hin rfl)).1
    refine h.startWait hb _ nofun ?_ nofun
    dsimp only at hbits ⊢
    omega
  | highWait =>
    refine h.waitOr hb rfl ?_
    by_cases hbc : bcnt ≠ 0
    · rw [if_pos hbc]
      exact h.move hb _ nofun nofun hbits (fun _ => hbc)
    · rw [if_neg hbc]
      cases hw : moreWords s word with
      | true => exact h.load hb _ _
      | false => exact h.move hb _ nofun nofun hbits nofun
  | endAct => exact h.startWait hb _ nofun hbits nofun
  | endWait =>
    refine h.waitOr hb rfl ?_
    cases ht : moreTxns s txn with
    | true => exact h.move hb _ nofun nofun hbits nofun
    | false => exact h.complete

end Busy

/-! ## Acceptance -/

/-- A request that launches no program writes the memory or takes a fault (R102). -/
theorem exec_decodeRequest {q : Request} (hinit : decodeRequest q ≠ .init)
    (hrefresh : decodeRequest q ≠ .refresh) (s : State) :
    ∃ t, exec (decodeRequest q) s = .next t ∧ t.inputs = s.inputs ∧ t.prog = s.prog ∧
      t.cfg = s.cfg ∧ (t.ctl = s.ctl ∨ t.ctl = .faulted) := by
  unfold decodeRequest at hinit hrefresh ⊢
  split_ifs at hinit hrefresh ⊢
  · exact absurd rfl hinit
  · exact ⟨_, rfl, rfl, rfl, rfl, .inl rfl⟩
  · exact ⟨_, rfl, rfl, rfl, rfl, .inl rfl⟩
  · exact ⟨_, rfl, rfl, rfl, rfl, .inl rfl⟩
  · exact absurd rfl hrefresh
  all_goals exact ⟨_, rfl, rfl, rfl, rfl, .inr rfl⟩

theorem RegState.accept_of_next {r : RegState} {q : Request} {t : State}
    (hinit : decodeRequest q ≠ .init) (hrefresh : decodeRequest q ≠ .refresh)
    (he : exec (decodeRequest q) r.core = .next t) : r.accept q = { r with core := t } := by
  unfold RegState.accept
  split
  · contradiction
  · contradiction
  · rw [he]

/-- A program launched in the registers stands for the program launched in the list (R103). -/
theorem RegState.Ok.launch {r : RegState} (h : r.Ok) {o : CurOp} {l : List MicroOp}
    (ho : o = .init ∨ o = .refresh) (hl : (r.launch o).program = l) :
    r.core.launch o l = (r.launch o).listForm ∧ (r.launch o).Ok := by
  refine ⟨by rw [RegState.listForm, hl]; rfl, ?_⟩
  exact {
    driven := h.driven
    unused := h.unused
    running := by simp [RegState.launch]
    request := fun _ => ho
    delay := nofun
    bits := Nat.zero_le 16
    inBit := nofun }

theorem RegState.program_launch_init (r : RegState) :
    (r.launch .init).program = initProg r.core.cfg := by
  simp [RegState.launch, RegState.program, SeqRegs.reset, wordsFrom, wordOf, txnsAfter, initProg_eq,
    Config.initSeq_toList, sendCmd, bracket]

theorem RegState.program_launch_refresh (r : RegState) :
    (r.launch .refresh).program = refreshProg r.core.cfg (r.core.word 0) (r.core.word 1) := by
  simp [RegState.launch, RegState.program, SeqRegs.reset, wordsFrom, wordOf, txnsAfter, refreshProg,
    bracket, List.range, List.range.loop, State.word]

/-- A fault leaves the registers idle (R262). -/
theorem RegState.Ok.raiseFault {r : RegState} (h : r.Ok) (hc : r.core.ctl ≠ .busy)
    (c : FaultCause) :
    r.core.raiseFault c = ({ r with core := r.core.raiseFault c } : RegState).listForm ∧
      ({ r with core := r.core.raiseFault c } : RegState).Ok :=
  have hok := h.withCore hc (t := r.core.raiseFault c) rfl rfl rfl nofun
  ⟨(hok.listForm_eq nofun).symm, hok⟩

/-- What the block in registers accepts is what its list form accepts (R102). -/
theorem RegState.Ok.accept {r : RegState} (h : r.Ok) (hi : r.core.ctl = .idle) (q : Request) :
    exec (decodeRequest q) r.core = .next (r.accept q).listForm ∧ (r.accept q).Ok := by
  have hne : r.core.ctl ≠ .busy := by simp [hi]
  by_cases hinit : decodeRequest q = .init
  · simp only [RegState.accept, hinit, exec, execInit]
    split
    · exact (h.raiseFault hne .reinit).imp_left (congrArg Host.Outcome.next)
    · exact (h.launch (.inl rfl) r.program_launch_init).imp_left (congrArg Host.Outcome.next)
  by_cases hrefresh : decodeRequest q = .refresh
  · simp only [RegState.accept, hrefresh, exec, execRefresh]
    split
    · exact (h.raiseFault hne .notInitialized).imp_left (congrArg Host.Outcome.next)
    · exact (h.launch (.inr rfl) r.program_launch_refresh).imp_left (congrArg Host.Outcome.next)
  obtain ⟨t, he, hin, hprog, hcfg, hctl⟩ := exec_decodeRequest hinit hrefresh r.core
  have ht : t.ctl ≠ .busy := by rcases hctl with hctl | hctl <;> simp [hctl, hi]
  have hok := h.withCore hne hin hprog hcfg ht
  rw [RegState.accept_of_next hinit hrefresh he, hok.listForm_eq ht]
  exact ⟨he, hok⟩

/-! ## The step -/

/-- What an edge that samples the ports `p` does to the block in registers (R100). -/
def RegState.portsEdge (p : Ports) (r : RegState) : RegState :=
  if p.rst then ⟨r.core.resetEdge, SeqRegs.reset⟩
  else
    match r.core.ctl with
    | .idle => if p.reqValid then r.accept p.request else r
    | .busy => r.runEdge
    | .faulted => r

theorem RegState.step_of_ports {r : RegState} {p : Ports} {rest : List Stimulus}
    (h : r.core.sample = (.ports p, rest)) :
    r.step = RegState.portsEdge p { r with core.inputs := rest } := by
  simp only [RegState.step, h]
  rfl

/-- With the same ports, both forms take the same case of R100. -/
theorem RegState.Ok.portsEdge {r : RegState} (h : r.Ok) (p : Ports) :
    Machine.portsEdge p r.listForm = .next (r.portsEdge p).listForm ∧ (r.portsEdge p).Ok := by
  unfold RegState.portsEdge
  cases hr : p.rst with
  | true =>
    rw [portsEdge_rst _ hr]
    exact ⟨rfl, RegState.ok_resetOf _ h.driven⟩
  | false =>
    cases hc : r.core.ctl with
    | idle =>
      cases hv : p.reqValid with
      | true =>
        rw [portsEdge_accept (s := r.listForm) hr hv hc, h.listForm_eq (by simp [hc])]
        exact h.accept hc p.request
      | false =>
        rw [portsEdge_idle (s := r.listForm) hr hv hc]
        exact ⟨rfl, h⟩
    | busy =>
      rw [portsEdge_busy (s := r.listForm) hr hc]
      exact ⟨h.runEdge_listForm hc, h.runEdge hc⟩
    | faulted =>
      rw [portsEdge_faulted (s := r.listForm) hr hc]
      exact ⟨rfl, h⟩

/-- While only a host acts on it, the block in registers does at every edge what its list form
does. -/
theorem RegState.Ok.step {r : RegState} (h : r.Ok) :
    Machine.step r.listForm = .next r.step.listForm ∧ r.step.Ok := by
  obtain ⟨p, rest, hs, hall⟩ := State.sample_host (s := r.core) h.driven
  rw [Machine.step_of_ports (s := r.listForm) hs, RegState.step_of_ports hs]
  exact (h.withInputs hall).portsEdge p

/-- Settles O58: one edge, by the phase of the registers where a program runs. -/
theorem realizationSimulatesTheListForm : Obligations.RealizationSimulatesTheListForm :=
  fun _ h => h.step

/-! ## Runs -/

/-- Any number of edges of the registers are as many of the list form, by induction on it. -/
theorem RegState.Ok.run {r : RegState} (h : r.Ok) (n : Nat) :
    Sys2Proof.core.run n r.listForm = .next (RegState.run n r).listForm := by
  induction n generalizing r with
  | zero => rfl
  | succ n ih =>
    obtain ⟨hstep, hok⟩ := h.step
    rw [run_succ hstep, ih hok]
    rfl

/-- Settles O59: the outputs (R38) are read from the state the two machines share. -/
theorem realizationDrivesTheSameOutputs : Obligations.RealizationDrivesTheSameOutputs :=
  fun c _ hl n _ => ⟨_, (RegState.ok_resetOf c hl).run n, rfl⟩

end Sys2Proof.Machine
end

section
/-! The encodings (30_encoding.md): the opcode map of the host requests, the round trip through the
encoder, and the words of the operand commands. -/

namespace Sys2Proof

open Machine

/-! ## The round trip -/

/-- Settles O3: the family of round trips, one instruction at a time. -/
theorem decodeInvertsEncode : Obligations.DecodeInvertsEncode := by
  intro i
  cases i with
  | init => exact Laws.RoundTrip.init
  | setmem p v => exact Laws.RoundTrip.setmem p v
  | wrdig p d => exact Laws.RoundTrip.wrdig p d
  | wrdigs d => exact Laws.RoundTrip.wrdigs d
  | refresh => exact Laws.RoundTrip.refresh
  | reserved000 => exact Laws.RoundTrip.reserved000
  | reserved110 => exact Laws.RoundTrip.reserved110
  | reserved111 => exact Laws.RoundTrip.reserved111
  | normalMode => exact Laws.RoundTrip.normalMode
  | testMode => exact Laws.RoundTrip.testMode
  | oscOn => exact Laws.RoundTrip.oscOn
  | oscRc => exact Laws.RoundTrip.oscRc
  | oscXtal => exact Laws.RoundTrip.oscXtal
  | oscExt => exact Laws.RoundTrip.oscExt
  | biasOn => exact Laws.RoundTrip.biasOn
  | biasOff => exact Laws.RoundTrip.biasOff
  | wdtClear => exact Laws.RoundTrip.wdtClear
  | biasCom s c => exact Laws.RoundTrip.biasCom s c
  | wdtTimebase t => exact Laws.RoundTrip.wdtTimebase t
  | writeAddr0 => exact Laws.RoundTrip.writeAddr0
  | data16 w => exact Laws.RoundTrip.data16 w

/-- Settles O1: the decoder evaluated on the eleven words. -/
theorem writtenWordsDecode : Obligations.WrittenWordsDecode := by
  unfold Obligations.WrittenWordsDecode
  decide

/-! ## The opcode map (R71, R73) -/

/-- Settles O2: `decodeRequest` looks at `op` alone, and takes the operands from their fields. -/
theorem requestOpcodeMap : Obligations.RequestOpcodeMap := by
  intro p a
  simp [decodeRequest]

/-- The row of R71 that a request word stands for. -/
theorem decodeRequest_cases (r : Request) :
    r.op = 0b000 ∧ decodeRequest r = .reserved000 ∨
    r.op = 0b001 ∧ decodeRequest r = .init ∨
    r.op = 0b010 ∧ decodeRequest r = .setmem r.pos r.arg ∨
    r.op = 0b011 ∧ decodeRequest r = .wrdig r.pos r.arg ∨
    r.op = 0b100 ∧ decodeRequest r = .wrdigs r.arg ∨
    r.op = 0b101 ∧ decodeRequest r = .refresh ∨
    r.op = 0b110 ∧ decodeRequest r = .reserved110 ∨
    r.op = 0b111 ∧ decodeRequest r = .reserved111 := by
  have opcodes : ∀ o : BitVec 3, o = 0b000 ∨ o = 0b001 ∨ o = 0b010 ∨ o = 0b011 ∨ o = 0b100 ∨
      o = 0b101 ∨ o = 0b110 ∨ o = 0b111 := by decide
  rcases opcodes r.op with h | h | h | h | h | h | h | h <;> simp [decodeRequest, h]

/-- Settles O38: the three reserved rows raise the fault, and they are the rows of the three
opcodes. -/
theorem reservedOpcodesRaiseIllegalOp : Obligations.ReservedOpcodesRaiseIllegalOp := by
  refine fun s => ⟨rfl, rfl, rfl, rfl, fun r h => ?_⟩
  obtain h | h | h := h <;> simp only [decodeRequest, h] <;> rfl

/-! ## Unused fields (R72) -/

/-- A request word is decoded from the fields its opcode uses. -/
theorem decodeRequest_congr {r r' : Request} (hop : r.op = r'.op)
    (hpos : r.op = 0b010 ∨ r.op = 0b011 → r.pos = r'.pos)
    (harg : r.op = 0b010 ∨ r.op = 0b011 ∨ r.op = 0b100 → r.arg = r'.arg) :
    decodeRequest r = decodeRequest r' := by
  unfold decodeRequest
  rw [← hop]
  split_ifs with _ hsetmem hwrdig hwrdigs
  · rfl
  · rw [hpos (.inl hsetmem), harg (.inl hsetmem)]
  · rw [hpos (.inr hwrdig), harg (.inr (.inl hwrdig))]
  · rw [harg (.inr (.inr hwrdigs))]
  all_goals rfl

theorem requestWord_eq_some_iff {i : Instr} {r : Request} :
    requestWord i = some r ↔ encode i = .host13 r := by
  unfold requestWord
  split <;> simp_all

/-- The encoder writes 0 in the fields an opcode does not use. -/
theorem unused_fields_of_encode {i : Instr} {r : Request} (h : encode i = .host13 r) :
    (¬(r.op = 0b010 ∨ r.op = 0b011) → r.pos = 0) ∧
    (¬(r.op = 0b010 ∨ r.op = 0b011 ∨ r.op = 0b100) → r.arg = 0) := by
  cases i <;> cases h
  -- the wire rows have no request word; each host row's word is given by its fields
  all_goals simp

/-- Settles O5: equal used fields decode to one instruction, and the assembler's words are the
encoder's. -/
theorem unusedFieldsHaveNoEffect : Obligations.UnusedFieldsHaveNoEffect :=
  ⟨fun _ _ _ hop hpos harg => by rw [decodeRequest_congr hop hpos harg],
    fun _ _ h => unused_fields_of_encode (requestWord_eq_some_iff.1 h)⟩

/-! ## The operand commands (R81) -/

/-- Settles O9: the default codes put each parameter bit at its place, checked for the eight values
of each command's operands. -/
theorem operandCommandWords : Obligations.OperandCommandWords := by
  have biasCom : ∀ (s : BitVec 2) (c : BitVec 1),
      commandCode 0b001 (datasheetCode defaultCodes (.biasCom s c)) =
      0x021#12 ||| (s.extractLsb' 1 1).setWidth 12 <<< 7 ||| (s.extractLsb' 0 1).setWidth 12 <<< 8
        ||| c.setWidth 12 <<< 10 := by decide
  have wdtTimebase : ∀ t : BitVec 3,
      commandCode 0b001 (datasheetCode defaultCodes (.wdtTimebase t)) =
      0x029#12 ||| (t.extractLsb' 0 1).setWidth 12 <<< 10
        ||| (t.extractLsb' 1 1).setWidth 12 <<< 9 ||| (t.extractLsb' 2 1).setWidth 12 <<< 8 := by
    decide
  exact fun _ => ⟨biasCom, wdtTimebase⟩

end Sys2Proof
end

section
/-! The rows of spec/opcode_table.json that a word of each format matches. -/

namespace Sys2Proof

/-- The rows of one format. -/
def formatRows (host : Bool) (width : Nat) : List TableRow :=
  (hostRows ++ wireRows).filter fun t => t.host == host && t.width == width

/-- A word matches, among the rows of its format, those whose fixed bits it has. -/
theorem matchingRows_eq (e : Encoded) : matchingRows e =
    ((formatRows e.host e.width).filter fun t => e.toNat &&& t.mask == t.fixed).map
      (·.mnemonic) := by
  rw [matchingRows, formatRows, List.filter_filter]
  congr 2
  funext t
  exact Bool.and_comm _ _

/-! ## Host requests -/

theorem and_shiftLeft_mask (x m n : Nat) : x &&& m <<< n = (x >>> n &&& m) <<< n := by
  refine Nat.eq_of_testBit_eq fun k => ?_
  by_cases hk : n ≤ k <;> simp [Nat.testBit_shiftLeft, hk]

/-- The bits that the mask 0x1C00 of the host rows keeps are the `op` field (R70). -/
theorem Request.toNat_and_opMask (r : Request) : r.toNat &&& 0x1C00 = r.op.toNat <<< 10 := by
  calc r.toNat &&& (2 ^ 3 - 1) <<< 10
      = (r.toNat >>> 10 &&& 2 ^ 3 - 1) <<< 10 := and_shiftLeft_mask _ _ _
    _ = r.op.toNat <<< 10 := by
        rw [Nat.and_two_pow_sub_one_eq_mod, Request.op, BitVec.extractLsb'_toNat]

/-- Only the `op` field decides which host rows match. -/
theorem matchingRows_host13_eq (r : Request) : matchingRows (.host13 r) =
    (hostRows.filter fun t => r.op.toNat <<< 10 == t.fixed).map (·.mnemonic) := by
  have masks : ∀ t ∈ hostRows, t.mask = 0x1C00 := by decide
  rw [matchingRows_eq, show formatRows _ _ = hostRows from rfl]
  refine congrArg _ (List.filter_congr fun t ht => ?_)
  rw [masks t ht, Encoded.toNat, Request.toNat_and_opMask]

theorem matchingRows_host13 (r : Request) :
    matchingRows (.host13 r) = [(decodeRequest r).mnemonic] := by
  rw [matchingRows_host13_eq]
  rcases decodeRequest_cases r with
    ⟨ho, hd⟩ | ⟨ho, hd⟩ | ⟨ho, hd⟩ | ⟨ho, hd⟩ | ⟨ho, hd⟩ | ⟨ho, hd⟩ | ⟨ho, hd⟩ | ⟨ho, hd⟩ <;>
  (rw [ho, hd]; rfl)

/-! ## Wire words -/

/-- Comparing the masked bits as numbers, as the table does, or as words, as the decoder does. -/
theorem toNat_and_eq_iff {n : Nat} (w : BitVec n) {k f : Nat} (hk : k < 2 ^ n) (hf : f < 2 ^ n) :
    w.toNat &&& k = f ↔ w &&& BitVec.ofNat n k = BitVec.ofNat n f := by
  rw [BitVec.toNat_eq, BitVec.toNat_and, BitVec.toNat_ofNat, BitVec.toNat_ofNat,
    Nat.mod_eq_of_lt hk, Nat.mod_eq_of_lt hf]

/-- A row that fixes every bit matches its own word alone. -/
theorem toNat_and_allOnes_eq_iff {n : Nat} (w : BitVec n) {f : Nat} (hf : f < 2 ^ n) :
    w.toNat &&& 2 ^ n - 1 = f ↔ w = BitVec.ofNat n f := by
  rw [Nat.and_two_pow_sub_one_of_lt_two_pow w.isLt, BitVec.toNat_eq, BitVec.toNat_ofNat,
    Nat.mod_eq_of_lt hf]

/-- The words of the commands without operands (R163). -/
def fixedCommandWords : List (BitVec 12) :=
  [0x639, 0x039, 0x401, 0x0C1, 0x141, 0x1C1, 0x601, 0x201, 0x381]

/-- The rows of the commands without operands. -/
def fixedCommandRows : List TableRow := wireRows.take 9

/-- The rows of the commands with operands. -/
def operandCommandRows : List TableRow := (wireRows.drop 9).take 2

theorem decodeFixedCommand_eq_none {w : BitVec 12} (h : w ∉ fixedCommandWords) :
    decodeFixedCommand w = none := by
  simp_all [decodeFixedCommand, fixedCommandWords]

theorem filter_fixedCommandRows {w : BitVec 12} (h : w ∉ fixedCommandWords) :
    (fixedCommandRows.filter fun t => w.toNat &&& t.mask == t.fixed) = [] := by
  have rows : ∀ t ∈ fixedCommandRows, t.mask = 2 ^ 12 - 1 ∧ t.fixed < 2 ^ 12 ∧
      BitVec.ofNat 12 t.fixed ∈ fixedCommandWords := by decide
  refine List.filter_eq_nil_iff.2 fun t ht hm => ?_
  obtain ⟨hmask, hlt, hword⟩ := rows t ht
  rw [hmask, beq_iff_eq, toNat_and_allOnes_eq_iff w hlt] at hm
  exact h (hm ▸ hword)

/-- Any other 12-bit word matches at most the rows of the commands with operands. -/
theorem matchingRows_wire12_of_notMem {w : BitVec 12} (h : w ∉ fixedCommandWords) :
    matchingRows (.wire (.wire12 w)) =
      (if w &&& 0xA7F = 0x021 then ["BIAS_COM_s__c"] else []) ++
      (if w &&& 0x8FF = 0x029 then ["WDT_TIMEBASE_t"] else []) := by
  have hbias : w.toNat &&& 0xA7F = 0x021 ↔ w &&& 0xA7F = 0x021 :=
    toNat_and_eq_iff w (by decide) (by decide)
  have hwdt : w.toNat &&& 0x8FF = 0x029 ↔ w &&& 0x8FF = 0x029 :=
    toNat_and_eq_iff w (by decide) (by decide)
  rw [matchingRows_eq, show formatRows _ _ = fixedCommandRows ++ operandCommandRows from rfl,
    List.filter_append, Encoded.toNat, filter_fixedCommandRows h, List.nil_append]
  simp only [← hbias, ← hwdt, operandCommandRows, wireRows, List.drop, List.take, List.filter_cons,
    List.filter_nil, beq_iff_eq]
  split_ifs <;> rfl

/-- The two commands with operands differ in bit 3. -/
theorem wdtTimebase_bits_of_biasCom_bits {w : BitVec 12} (h : w &&& 0xA7F = 0x021) :
    w &&& 0x8FF ≠ 0x029 := by
  intro h'
  have hclear : w.getLsbD 3 = false := by simpa using congrArg (·.getLsbD 3) h
  have hset : w.getLsbD 3 = true := by simpa using congrArg (·.getLsbD 3) h'
  exact Bool.false_ne_true (hclear.symm.trans hset)

theorem matchingRows_wire12 (w : BitVec 12) :
    matchingRows (.wire (.wire12 w)) = ((decodeWire12 w).map Instr.mnemonic).toList := by
  by_cases hw : w ∈ fixedCommandWords
  · simp only [fixedCommandWords, List.mem_cons, List.not_mem_nil, or_false] at hw
    rcases hw with rfl | rfl | rfl | rfl | rfl | rfl | rfl | rfl | rfl <;> rfl
  · rw [matchingRows_wire12_of_notMem hw, decodeWire12, decodeFixedCommand_eq_none hw,
      decodeOperandCommand]
    split_ifs with hbias hwdt
    · exact absurd hwdt (wdtTimebase_bits_of_biasCom_bits hbias)
    all_goals rfl

theorem matchingRows_wire9 (w : BitVec 9) :
    matchingRows (.wire (.wire9 w)) = if w = 0x005 then ["WRITE_ADDR0"] else [] := by
  have hrow : w.toNat &&& 0x1FF = 0x005 ↔ w = 0x005 := toNat_and_allOnes_eq_iff w (by decide)
  rw [matchingRows_eq, show formatRows _ _ = [⟨"WRITE_ADDR0", false, 9, 0x005, 0x1FF⟩] from rfl]
  simp only [← hrow, Encoded.toNat, List.filter_cons, List.filter_nil, beq_iff_eq]
  split_ifs <;> rfl

theorem matchingRows_wire16 (w : BitVec 16) : matchingRows (.wire (.wire16 w)) = ["DATA16_w"] := by
  rw [matchingRows_eq, show formatRows _ _ = [⟨"DATA16_w", false, 16, 0, 0⟩] from rfl]
  simp

/-- Settles O4: each format of words has its own rows, and the decoder names the one that
matches. -/
theorem decodeAgreesWithOpcodeTable : Obligations.DecodeAgreesWithOpcodeTable := by
  intro e
  match e with
  | .host13 r => exact matchingRows_host13 r
  | .wire (.wire9 w) =>
    rw [matchingRows_wire9, decode, decodeWire]
    split_ifs <;> rfl
  | .wire (.wire12 w) =>
    rw [matchingRows_wire12, decode, decodeWire]
    cases decodeWire12 w <;> rfl
  | .wire (.wire16 w) => exact matchingRows_wire16 w

end Sys2Proof
end

section
/-! The assembler's words (R85, R86). -/

namespace Sys2Proof

/-- `{op, pos, arg}` as a number (R85). -/
theorem Request.ofFields_eq_ofNat (o : BitVec 3) (p : Position) (a : Byte) :
    Request.ofFields o p a = BitVec.ofNat 13 (o.toNat * 0x400 + p.toNat * 0x100 + a.toNat) := by
  refine BitVec.eq_of_toNat_eq ?_
  rw [Request.ofFields, BitVec.toNat_append, BitVec.toNat_append,
    ← Nat.shiftLeft_add_eq_or_of_lt a.isLt, ← Nat.shiftLeft_add_eq_or_of_lt p.isLt,
    BitVec.toNat_ofNat]
  omega

@[simp] theorem toNat_asmPosition {p : Nat} (h : p < 4) : (asmPosition p).toNat = p :=
  Nat.mod_eq_of_lt h

@[simp] theorem toNat_asmByte {v : Nat} (h : v < 256) : (asmByte v).toNat = v :=
  Nat.mod_eq_of_lt h

@[simp] theorem AsmLine.positionOk_eq (p : Nat) : AsmLine.positionOk p = decide (p < 4) := rfl

@[simp] theorem AsmLine.byteOk_eq (v : Nat) : AsmLine.byteOk v = decide (v < 256) := rfl

theorem AsmLine.assemble_of_wf {l : AsmLine} (h : l.wf = true) :
    l.assemble = l.expand.mapM requestWord := if_pos h

theorem AsmLine.assemble_of_not_wf {l : AsmLine} (h : l.wf = false) : l.assemble = none := by
  simp [AsmLine.assemble, h]

@[simp] theorem requestWord_setmem (p : Position) (v : Byte) :
    requestWord (.setmem p v) = some (BitVec.ofNat 13 (0x0800 + p.toNat * 0x100 + v.toNat)) :=
  congrArg some (Request.ofFields_eq_ofNat 0b010 p v)

@[simp] theorem requestWord_wrdig (p : Position) (d : Byte) :
    requestWord (.wrdig p d) = some (BitVec.ofNat 13 (0x0C00 + p.toNat * 0x100 + d.toNat)) :=
  congrArg some (Request.ofFields_eq_ofNat 0b011 p d)

@[simp] theorem requestWord_wrdigs (d : Byte) :
    requestWord (.wrdigs d) = some (BitVec.ofNat 13 (0x1000 + d.toNat)) :=
  congrArg some (Request.ofFields_eq_ofNat 0b100 0 d)

@[simp] theorem requestWord_refresh : requestWord .refresh = some 0x1400 := rfl

/-- Settles O6: a line in range has the words of its expansion, and another has none. -/
theorem assemblerWritesTheStatedWords : Obligations.AssemblerWritesTheStatedWords := by
  refine ⟨rfl, rfl, rfl, fun p v hp hv => ?_, fun d hd => ?_, fun d0 d1 d2 d3 h0 h1 h2 h3 => ?_,
    fun p v h => ?_, fun d h => ?_, fun d0 d1 d2 d3 h => ?_⟩
  · constructor <;> rw [AsmLine.assemble_of_wf (by simp [AsmLine.wf, hp, hv])] <;>
    simp [AsmLine.expand, hp, hv]
  · constructor <;> rw [AsmLine.assemble_of_wf (by simp [AsmLine.wf, hd])] <;>
    simp [AsmLine.expand, hd]
  · rw [AsmLine.assemble_of_wf (by simp [AsmLine.wf, h0, h1, h2, h3])]
    simp [AsmLine.expand, h0, h1, h2, h3]
  · constructor <;> exact AsmLine.assemble_of_not_wf (by simpa [AsmLine.wf] using h)
  · constructor <;> exact AsmLine.assemble_of_not_wf (by simpa [AsmLine.wf] using h)
  · exact AsmLine.assemble_of_not_wf (by simpa [AsmLine.wf, and_assoc] using h)

end Sys2Proof
end

section
/-! The controller (40_controller.md): what an edge takes from the inputs in each controller state,
and a bus program followed to its end. -/

namespace Sys2Proof.Machine

/-! ## What an edge takes from the inputs -/

theorem State.sample_nil {s : State} (h : s.inputs = []) :
    s.sample = (.ports .quiet, []) := by
  simp [State.sample, h]

theorem State.sample_edge {s : State} {p : Ports} {rest : List Stimulus}
    (h : s.inputs = .edge p :: rest) : s.sample = (.ports p, rest) := by
  simp [State.sample, h]

theorem State.sample_wire {s : State} {w : WireWord} {rest : List Stimulus} (hi : s.ctl = .idle)
    (h : s.inputs = .wire w :: rest) : s.sample = (.wire w, rest) := by
  simp [State.sample, h, hi]

/-- Outside `IDLE` a held request is on the ports and stays in the inputs (log 2). -/
theorem State.sample_present_of_ne_idle {s : State} {r : Request} {rest : List Stimulus}
    (hi : s.ctl ≠ .idle) (h : s.inputs = .present r :: rest) :
    s.sample = (.ports (.presenting r), .present r :: rest) := by
  simp [State.sample, h, hi]

/-! ## `IDLE` (R101, R102, R106) -/

/-- In `IDLE` an encoded instruction at the inputs, in either encoding, is what the step
performs. -/
theorem step_stimulusOf {s : State} {e : Encoded} {i : Instr} {rest : List Stimulus}
    (hi : s.ctl = .idle) (h : s.inputs = stimulusOf e :: rest) (hd : decode e = .ok i) :
    step s = exec i { s with inputs := rest } := by
  cases e with
  | host13 r =>
    cases hd
    exact (step_present hi h).1
  | wire w =>
    have hw : decodeWire w = .ok i := hd
    rw [step_of_wire (State.sample_wire hi h), runWireWord, hw]

/-- A request on the ports is accepted while `req_ready = 1` (R101). -/
theorem portsEdge_of_ready {p : Ports} {s : State} (hv : p.reqValid = true)
    (h : s.reqReady p.rst = true) : portsEdge p s = exec (decodeRequest p.request) s := by
  obtain ⟨hi, hr⟩ := (s.reqReady_iff p.rst).mp h
  exact portsEdge_accept hr hv hi

/-- Settles O24: the two forms of a request, and the model's own wire word. -/
theorem stepRunsTheDecodedInstruction : Obligations.StepRunsTheDecodedInstruction := by
  intro s rest hi
  refine ⟨fun r h => ?request, fun p h hr hv => ?ports, fun w i h hd => ?wire⟩
  case request => exact step_stimulusOf (e := .host13 r) hi h rfl
  case ports => rw [step_of_ports (State.sample_edge h), portsEdge_accept hr hv (by exact hi)]
  case wire => exact step_stimulusOf (e := .wire w) hi h hd

/-- A table word decodes when it stands for a word of some format, and that word decodes. -/
theorem decodeTableWord_eq_some {nbits w : Nat} {i : Instr} (h : decodeTableWord nbits w = some i) :
    ∃ e, tableWord nbits w = some e ∧ decode e = .ok i := by
  unfold decodeTableWord at h
  split at h
  · cases h
  · rename_i e he
    split at h <;> cases h
    exact ⟨e, he, by assumption⟩

/-- Settles O25: `withFetchWord` puts the word before the inputs, and the step takes it off. -/
theorem fetchedWordIsRun : Obligations.FetchedWordIsRun := by
  intro s nbits w i hi h
  obtain ⟨e, he, hd⟩ := decodeTableWord_eq_some h
  have hfetch : s.withFetchWord nbits w = { s with inputs := stimulusOf e :: s.inputs } := by
    simp only [State.withFetchWord, fetchNext, he]
  rw [hfetch]
  exact step_stimulusOf (by exact hi) rfl hd

/-- Settles O26: past the end of the inputs the ports are quiet, and quiet ports leave `IDLE` as it
is. -/
theorem idleWithoutRequestChangesNothing : Obligations.IdleWithoutRequestChangesNothing := by
  intro s hi
  refine ⟨fun h => ?_, fun p rest h hr hv => ?_⟩
  · rw [step_of_ports (State.sample_nil h), portsEdge_idle rfl rfl (by exact hi), ← h]
  · rw [step_of_ports (State.sample_edge h), portsEdge_idle hr hv (by exact hi)]

/-! ## A request while `req_ready = 0` (R101) -/

/-- While `req_ready = 0`, only the level of `rst` on the ports has an effect. -/
theorem portsEdge_of_not_ready {p q : Ports} {s : State} (hpq : p.rst = q.rst)
    (h : s.reqReady p.rst = false) : portsEdge p s = portsEdge q s := by
  cases hr : q.rst with
  | true => rw [portsEdge_rst s (hpq.trans hr), portsEdge_rst s hr]
  | false =>
    cases hc : s.ctl with
    | idle => simp [State.reqReady, hc, hpq, hr] at h
    | busy => rw [portsEdge_busy (hpq.trans hr) hc, portsEdge_busy hr hc]
    | faulted => rw [portsEdge_faulted (hpq.trans hr) hc, portsEdge_faulted hr hc]

/-- Settles O27: acceptance is the ready case, and the ports of the other case differ only in the
request. -/
theorem requestWhileNotReadyChangesNothing : Obligations.RequestWhileNotReadyChangesNothing := by
  refine fun s => ⟨s.reqReady_iff, fun p rest hv => ⟨fun h => ?_, fun h => ?_⟩⟩
  · rw [step_of_ports (State.sample_edge rfl)]
    exact portsEdge_of_ready hv h
  · rw [step_of_ports (State.sample_edge rfl), step_of_ports (State.sample_edge rfl)]
    exact portsEdge_of_not_ready rfl h

theorem State.reqReady_of_ne_idle {s : State} (h : s.ctl ≠ .idle) (rst : Bool) :
    s.reqReady rst = false := by
  simp [State.reqReady, h]

theorem Ctl.busy_or_faulted {c : Ctl} (h : c ≠ .idle) : c = .busy ∨ c = .faulted := by
  cases c with
  | idle => exact absurd rfl h
  | busy => exact .inl rfl
  | faulted => exact .inr rfl

/-- Outside `IDLE` an edge without reset does the same whatever inputs are still to come, and leaves
them. -/
theorem portsEdge_inputs {p : Ports} {s t : State} (hr : p.rst = false) (hi : s.ctl ≠ .idle)
    (l : List Stimulus) :
    portsEdge p { s with inputs := l } = .next t ↔
      ∃ t', portsEdge p s = .next t' ∧ t = { t' with inputs := l } := by
  obtain hc | hc := Ctl.busy_or_faulted hi
  · rw [portsEdge_busy hr hc, portsEdge_busy hr (by exact hc), State.runEdge_inputs]
    cases s.runEdge <;> simp [eq_comm]
  · rw [portsEdge_faulted hr hc, portsEdge_faulted hr (by exact hc)]
    simp [eq_comm]

/-- Settles O28: the held request and the quiet ports both find `req_ready = 0`. -/
theorem heldRequestWaits : Obligations.HeldRequestWaits := by
  intro s r rest t hi
  rw [step_of_ports (State.sample_present_of_ne_idle (by exact hi) rfl),
    step_of_ports (State.sample_edge rfl),
    portsEdge_of_not_ready (p := .presenting r) (q := .quiet) rfl
      (State.reqReady_of_ne_idle (by exact hi) _)]
  exact portsEdge_inputs (s := { s with inputs := rest }) rfl hi (.present r :: rest)

/-! ## `FAULTED` (R107) -/

/-- Settles O30: an edge without reset samples the ports, and does not act on them. -/
theorem faultedHoldsUntilReset : Obligations.FaultedHoldsUntilReset := by
  intro s hf hr
  have hi : s.ctl ≠ .idle := by simp [hf]
  obtain ⟨p, rest, hs, hp⟩ := State.sample_ports hr hi
  refine ⟨⟨rest, ?_⟩, State.reqReady_of_ne_idle hi, ?_⟩
  · rw [step_of_ports hs, portsEdge_faulted hp (by exact hf)]
  · simp [State.accepts, hs, State.reqReady_of_ne_idle hi]

/-! ## One edge in `BUSY` (R104, R105) -/

/-- In `BUSY` an edge without reset runs the head of the program. -/
theorem step_run {s : State} (hb : s.ctl = .busy) (hr : s.resetNext = false) :
    ∃ rest, s.prog ≠ [] →
      step s = .next ({ s with inputs := rest, pins := headPins s.pins s.prog }.advanceTo
        (afterEdge s.prog)) := by
  obtain ⟨p, rest, hs, hp⟩ := State.sample_ports hr (by simp [hb])
  refine ⟨rest, fun hne => ?_⟩
  rw [step_of_ports hs, portsEdge_busy hp (by exact hb), State.runEdge_of_prog _ (by exact hne)]

theorem afterEdge_wait_of_gt {k : Nat} (h : 1 < k) (l : List MicroOp) :
    afterEdge (.wait k :: l) = .wait (k - 1) :: l := if_pos h

theorem afterEdge_wait_of_le {k : Nat} (h : k ≤ 1) (l : List MicroOp) :
    afterEdge (.wait k :: l) = l := if_neg (by omega)

/-- Settles O29: the head is an act, a delay that goes on, or a delay in its last cycle; the program
goes on with what is left, or completes. -/
theorem busyEdgeRunsTheHead : Obligations.BusyEdgeRunsTheHead := by
  intro s hb hr
  obtain ⟨rest, hrun⟩ := step_run hb hr
  refine ⟨rest, fun u l hp hl => ?act, fun u hp => ?lastAct, fun k l hp hk => ?wait,
    fun k l hp hk hl => ?waitDone, fun k hp hk => ?lastWait⟩
  all_goals rw [hrun (by simp [hp]), hp]
  case act => exact congrArg _ (State.advanceTo_of_ne_nil _ hl)
  case lastAct => rfl
  case wait =>
    rw [afterEdge_wait_of_gt hk, State.advanceTo_of_ne_nil _ (List.cons_ne_nil _ _)]
    rfl
  case waitDone =>
    rw [afterEdge_wait_of_le hk, State.advanceTo_of_ne_nil _ hl]
    rfl
  case lastWait =>
    rw [afterEdge_wait_of_le hk]
    rfl

/-! ## The machine goes on -/

/-- Every instruction answers a next state: a fault of the spec is one too (log 17). -/
theorem exec_next (i : Instr) (s : State) : ∃ t, exec i s = .next t := by
  cases i with
  | init =>
    simp only [exec, execInit]
    split <;> exact ⟨_, rfl⟩
  | refresh =>
    simp only [exec, execRefresh]
    split <;> exact ⟨_, rfl⟩
  | _ => exact ⟨_, rfl⟩

/-- An edge that samples the ports answers a next state, unless it finds `BUSY` without a program
(log 12), and leaves the inputs still to come. -/
theorem portsEdge_next (p : Ports) {s : State} (h : s.ctl = .busy → s.prog ≠ []) :
    ∃ t, portsEdge p s = .next t ∧ t.inputs = s.inputs := by
  cases hr : p.rst with
  | true => exact ⟨_, portsEdge_rst s hr, rfl⟩
  | false =>
    cases hc : s.ctl with
    | idle =>
      cases hv : p.reqValid with
      | true =>
        obtain ⟨t, ht⟩ := exec_next (decodeRequest p.request) s
        obtain ⟨-, -, hinputs, -⟩ := exec_frame ht
        exact ⟨t, (portsEdge_accept hr hv hc).trans ht, hinputs⟩
      | false => exact ⟨s, portsEdge_idle hr hv hc, rfl⟩
    | busy =>
      exact ⟨_, (portsEdge_busy hr hc).trans (s.runEdge_of_prog (h hc)),
        State.advanceTo_inputs _ _⟩
    | faulted => exact ⟨s, portsEdge_faulted hr hc, rfl⟩

/-- Settles O51: a host's edge samples the ports, and the invariant gives `BUSY` its program. -/
theorem hostNeverStopsTheMachine : Obligations.HostNeverStopsTheMachine := by
  intro s hinv hhost
  obtain ⟨p, rest, hs, hrest⟩ := State.sample_host hhost
  obtain ⟨t, ht, hinputs⟩ := portsEdge_next p (hinv.withInputs rest).running
  refine ⟨t, (step_of_ports hs).trans ht, ?_⟩
  rw [State.hostDriven, hinputs]
  exact hrest

/-! ## A bus program to its end (R109, R110) -/

/-- A bus program is running, and the inputs hold nothing that could disturb it. -/
structure State.Undisturbed (s : State) : Prop where
  busy : s.ctl = .busy
  prog : s.prog ≠ []
  delays : delaysOk (delayCycles s.cfg) s.prog = true
  inputs : s.requestsOnly = true

/-- The state after an edge that does not empty the program. -/
def State.afterHead (s : State) : State :=
  { s with pins := headPins s.pins s.prog, prog := afterEdge s.prog }

namespace State.Undisturbed

variable {s : State} (h : s.Undisturbed)
include h

theorem resetNext : s.resetNext = false := (step_busy h.busy h.inputs h.prog).2

/-- The edge that empties the program completes the request (R105). -/
theorem step_last (hl : afterEdge s.prog = []) : step s = .next s.afterHead.complete := by
  rw [(step_busy h.busy h.inputs h.prog).1, hl]
  rfl

theorem step_more (hl : afterEdge s.prog ≠ []) : step s = .next s.afterHead := by
  rw [(step_busy h.busy h.inputs h.prog).1, State.advanceTo_of_ne_nil _ hl]
  rfl

theorem afterHead (hl : afterEdge s.prog ≠ []) : s.afterHead.Undisturbed :=
  ⟨h.busy, hl, (afterEdge_delays h.delays h.prog).1, h.inputs⟩

theorem progEdges_afterEdge : progEdges (afterEdge s.prog) + 1 = progEdges s.prog :=
  (afterEdge_delays h.delays h.prog).2

/-- A program of one edge takes one edge. -/
theorem progEdges_last (hl : afterEdge s.prog = []) : progEdges s.prog = 1 := by
  rw [← h.progEdges_afterEdge, hl, progEdges_nil]

/-- What holds at the last edge of a program, and at an edge if it holds after it, holds wherever a
program runs: induction on the edges still to run. -/
theorem edge_induction {motive : ∀ s : State, s.Undisturbed → Prop}
    (last : ∀ (s : State) (h : s.Undisturbed), afterEdge s.prog = [] → motive s h)
    (more : ∀ (s : State) (h : s.Undisturbed) (hl : afterEdge s.prog ≠ []),
      motive s.afterHead (h.afterHead hl) → motive s h) :
    motive s h := by
  induction hn : progEdges s.prog generalizing s with
  | zero =>
    have := h.progEdges_afterEdge
    omega
  | succ n ih =>
    by_cases hl : afterEdge s.prog = []
    · exact last s h hl
    · have hlen := h.progEdges_afterEdge
      exact more s h hl (ih (h.afterHead hl) (by simp only [State.afterHead]; omega))

/-- The pins move as the micro-ops say, edge by edge. -/
theorem trace_progEdges : trace (progEdges s.prog) s = programCycles s.pins s.prog := by
  induction h using edge_induction with
  | last s h hl =>
    rw [h.progEdges_last hl, trace_succ (h.step_last hl), h.resetNext, programCycles,
      (playPins_edge s.pins h.delays h.prog).1, hl]
    rfl
  | more s h hl ih =>
    rw [← h.progEdges_afterEdge, trace_succ (h.step_more hl), h.resetNext, programCycles,
      (playPins_edge s.pins h.delays h.prog).1]
    exact congrArg _ ih

/-- After exactly its length, the program has left its pins, and the request is complete. -/
theorem run_progEdges :
    core.run (progEdges s.prog) s = .next { s with pins := finalPins s.pins s.prog }.complete := by
  induction h using edge_induction with
  | last s h hl =>
    rw [h.progEdges_last hl, run_succ (h.step_last hl),
      (playPins_edge s.pins h.delays h.prog).2, hl]
    rfl
  | more s h hl ih =>
    rw [← h.progEdges_afterEdge, run_succ (h.step_more hl),
      (playPins_edge s.pins h.delays h.prog).2]
    exact ih

/-- Before that, the block is `BUSY`, and nothing but the pins and the program has changed. -/
theorem run_lt_progEdges {k : Nat} (hk : k < progEdges s.prog) :
    ∃ t, core.run k s = .next t ∧
      t.ctl = .busy ∧ t.istate = s.istate ∧ t.mem = s.mem ∧ t.inputs = s.inputs := by
  induction h using edge_induction generalizing k with
  | last s h hl =>
    obtain rfl : k = 0 := by have := h.progEdges_last hl; omega
    exact ⟨s, rfl, h.busy, rfl, rfl, rfl⟩
  | more s h hl ih =>
    cases k with
    | zero => exact ⟨s, rfl, h.busy, rfl, rfl, rfl⟩
    | succ k =>
      rw [run_succ (h.step_more hl)]
      have hlen := h.progEdges_afterEdge
      exact ih (by simp only [State.afterHead]; omega)

end State.Undisturbed

/-- Settles O44, by induction on the edges the program still takes. -/
theorem busProgramRunsToItsEnd : Obligations.BusProgramRunsToItsEnd := by
  intro s hb hp hd hr
  have h : s.Undisturbed := ⟨hb, hp, hd, hr⟩
  exact ⟨h.trace_progEdges, h.run_progEdges, fun _ hk => h.run_lt_progEdges hk⟩

end Sys2Proof.Machine
end

section
/-! The bus (41_gpio_bus.md): the waveform of a bracket, and the bound a delay meets. -/

namespace Sys2Proof.Machine

/-! ## The brackets (R123, R124) -/

/-- An act followed by a delay holds the pins it leaves: one edge for the act, `d` for the delay
(R104). -/
theorem playPins_act_wait (p : Pins) (u : PinUpdate) (d : Nat) :
    playPins p [.act u, .wait d] = List.replicate (1 + d) (u.apply p) := by
  simp [playPins, Nat.add_comm 1 d, List.replicate_succ]

theorem playPins_beginOps (p : Pins) (d : Nat) :
    playPins p (beginOps d) = List.replicate (1 + d) ⟨false, true, p.data⟩ :=
  playPins_act_wait p _ d

theorem playPins_endOps (p : Pins) (d : Nat) :
    playPins p (endOps d) = List.replicate (1 + d) ⟨true, true, p.data⟩ :=
  playPins_act_wait p _ d

@[simp] theorem progEdges_beginOps (d : Nat) : progEdges (beginOps d) = 1 + d := by
  simp [beginOps, beginAct]

@[simp] theorem progEdges_endOps (d : Nat) : progEdges (endOps d) = 1 + d := by
  simp [endOps, endAct]

/-- Settles O17: each bracket is one act, held through the delay after it. -/
theorem bracketWaveform : Obligations.BracketWaveform :=
  fun p d => ⟨playPins_beginOps p d, playPins_endOps p d, progEdges_beginOps d, progEdges_endOps d⟩

/-! ## The delay (R126, R295) -/

/-- The design delay is the least number of edges that lasts 125 microseconds. -/
theorem designDelay_le_iff (f : ℕ+) (n : Nat) :
    designDelay f ≤ n ↔ 125 * f.val ≤ 1000000 * n := by
  unfold designDelay
  omega

/-- No build is below the design delay (R295). -/
theorem designDelay_le_delayCycles (c : Config) : designDelay c.fClk ≤ delayCycles c :=
  Nat.le_add_right ..

theorem delayCycles_of_margin_zero {c : Config} (h : c.delayMargin = 0) :
    delayCycles c = designDelay c.fClk := by
  rw [delayCycles, h, Nat.add_zero]

/-- Settles O19: a delay is at least the design delay, the least that lasts long enough; with no
margin, one edge less is below it. -/
theorem delayIsNotBelowTheDesignValue : Obligations.DelayIsNotBelowTheDesignValue := by
  intro c
  have hpos := one_le_delayCycles c
  refine ⟨c.fClk.pos, hpos, (designDelay_le_iff ..).mp (designDelay_le_delayCycles c), ?_⟩
  intro hmargin
  have hless : ¬ designDelay c.fClk ≤ delayCycles c - 1 := by
    rw [delayCycles_of_margin_zero hmargin] at hpos ⊢
    omega
  exact Nat.lt_of_not_le (mt (designDelay_le_iff ..).mpr hless)

end Sys2Proof.Machine
end

section
/-! The serial encoder (42_serial_encoder.md): one bit's waveform, the bits of a `Tx` on the wire, and
the laws of `Tx`. -/

namespace Sys2Proof.Machine

/-! ## One bit (R141) -/

/-- One bit is its low edge, then the bit set up and held, then the clock high and held. -/
theorem txBit_eq (d : Nat) (b : Bool) :
    txBit d b = [clkLow] ++ ([setData b, .wait d] ++ [clkHigh, .wait d]) := rfl

theorem playPins_txBit (p : Pins) (d : Nat) (b : Bool) :
    playPins p (txBit d b) =
      [⟨p.csN, false, p.data⟩] ++ List.replicate (d + 1) ⟨p.csN, false, b⟩
        ++ List.replicate (d + 1) ⟨p.csN, true, b⟩ := by
  rw [txBit_eq, playPins_append, playPins_append, setData, clkHigh, playPins_act_wait,
    playPins_act_wait, ← List.append_assoc, Nat.add_comm 1 d]
  rfl

/-- Settles O11: the low edge, then each of the two other acts held through the delay after it. -/
theorem bitWaveform : Obligations.BitWaveform := playPins_txBit

/-! ## A `Tx` as the monitor sees it (R142, R144, R146) -/

theorem wireBits_succ {w : Nat} (v : BitVec w) (n : Nat) :
    wireBits v (n + 1) = wireBits v n ++ [v.getLsbD n] := by
  simp [wireBits, List.range_succ]

/-- What the monitor makes of a `Tx` inside a transaction (R142). -/
theorem monitor_tx (m : Monitor) (d : Nat) (v : TxValue) (n : Nat) {bits : List Bool}
    (hc : m.current = some bits) (h0 : m.last.csN = false) :
    (programCycles m.last (tx d v n)).foldl Monitor.see m =
      { m with last := finalPins m.last (tx d v n), current := some (bits ++ wireBits v n) } := by
  induction n with
  | zero => simp [wireBits, finalPins, ← hc]
  | succ n ih =>
    have hcs : (finalPins m.last (tx d v n)).csN = false := by rw [finalPins_tx_csN, h0]
    rw [tx_succ, programCycles_append, monitor_fold_append, ih, finalPins_append, finalPins_txBit,
      hcs, wireBits_succ, ← List.append_assoc]
    exact monitor_txBit { m with last := finalPins m.last (tx d v n), current := _ } d _ rfl hcs

/-- Settles O12: by induction on the number of bits, each recorded at its own rise of `wr`. -/
theorem txPutsItsBitsOnTheWire : Obligations.TxPutsItsBitsOnTheWire := by
  intro d v n _
  refine ⟨fun m bits hc h0 => monitor_tx m d v n hc h0, fun p hn => ?_, tx_zero d v⟩
  obtain ⟨k, rfl⟩ := Nat.exists_eq_add_of_le' hn
  exact finalPins_tx_succ p d v k

/-! ## The laws of `Tx` (R145, R147) -/

/-- A `Tx` of `n` bits depends on the low `n` bits alone (R145). -/
theorem tx_congr (d : Nat) {v v' : TxValue} {n : Nat}
    (h : ∀ i, i < n → v.getLsbD i = v'.getLsbD i) : tx d v n = tx d v' n :=
  List.flatMap_congr fun i hi => by rw [h i (List.mem_range.mp hi)]

/-- Settles O13: no bit at position `n` or above is read. -/
theorem highBitsAreNeverSent : Obligations.HighBitsAreNeverSent := fun d _ _ _ h => tx_congr d h

/-- A `Tx` is its first `m` bits, then the `Tx` of the value shifted by `m`. -/
theorem tx_add (d : Nat) (v : TxValue) (m n : Nat) :
    tx d v (m + n) = tx d v m ++ tx d (v >>> m) n := by
  simp [tx, List.range_add, List.flatMap_map, BitVec.getLsbD_ushiftRight]

/-- Below position `m`, `a | b << m` has the bits of `a`. -/
theorem getLsbD_or_shiftLeft_low (a b : TxValue) {m i : Nat} (hi : i < m) :
    (a ||| b <<< m).getLsbD i = a.getLsbD i := by
  simp [hi]

/-- From position `m` up, `a | b << m` has the bits of `b`, as far as the word reaches. -/
theorem getLsbD_or_shiftLeft_high {a : TxValue} (b : TxValue) {m i : Nat} (ha : a.toNat < 2 ^ m)
    (hi : m + i < 16) : ((a ||| b <<< m) >>> m).getLsbD i = b.getLsbD i := by
  have hclear : a.getLsbD (m + i) = false :=
    Nat.testBit_lt_two_pow (ha.trans_le (Nat.pow_le_pow_right (by decide) (Nat.le_add_right m i)))
  rw [BitVec.getLsbD_ushiftRight, BitVec.getLsbD_or, hclear, Bool.false_or,
    BitVec.getLsbD_shiftLeft]
  simp [hi]

/-- Settles O14: the joined `Tx` is split at `m`, and each part reads only the bits of its own
value. -/
theorem txConcatenation : Obligations.TxConcatenation := by
  intro d a b m n ha hmn
  have hlow : tx d (a ||| b <<< m) m = tx d a m :=
    tx_congr d fun i hi => getLsbD_or_shiftLeft_low a b hi
  have hhigh : tx d ((a ||| b <<< m) >>> m) n = tx d b n :=
    tx_congr d fun i hi => getLsbD_or_shiftLeft_high b ha (by omega)
  rw [tx_add, hlow, hhigh]

end Sys2Proof.Machine
end

section
/-! What a host can make the block run (R178): the rest of an INIT's program or of a REFRESH's. -/

namespace Sys2Proof.Machine

/-! ## Acceptance (R102) -/

/-- An accepted request writes the memory, takes a fault, or launches one of the two programs. -/
inductive RequestCase (s t : State) : Prop
  | memory (m : List Host.Cell) (result : t = { s with mem := m })
  | fault (c : FaultCause) (result : t = s.raiseFault c)
  | launchInit (result : t = s.launch .init (initProg s.cfg))
  | launchRefresh (result : t = s.launch .refresh (refreshProg s.cfg (s.word 0) (s.word 1)))

/-- Of the cases of an instruction, a request has those that send no word by itself (R178). -/
theorem exec_request_cases {r : Request} {s t : State} (h : exec (decodeRequest r) s = .next t) :
    RequestCase s t := by
  rcases decodeRequest_cases r with
    ⟨-, hd⟩ | ⟨-, hd⟩ | ⟨-, hd⟩ | ⟨-, hd⟩ | ⟨-, hd⟩ | ⟨-, hd⟩ | ⟨-, hd⟩ | ⟨-, hd⟩ <;> rw [hd] at h
  · cases h; exact .fault _ rfl
  · simp only [exec, execInit] at h
    split at h <;> cases h
    · exact .fault _ rfl
    · exact .launchInit rfl
  · cases h; exact .memory _ rfl
  · cases h; exact .memory _ rfl
  · cases h; exact .memory _ rfl
  · simp only [exec, execRefresh] at h
    split at h <;> cases h
    · exact .fault _ rfl
    · exact .launchRefresh rfl
  · cases h; exact .fault _ rfl
  · cases h; exact .fault _ rfl

/-! ## The cases of a step -/

theorem State.HostInv.withInputs {s : State} (h : s.HostInv) {l : List Stimulus}
    (hl : l.all Stimulus.ofHost = true) : ({ s with inputs := l } : State).HostInv :=
  ⟨hl, h.atRest, h.running⟩

/-- A request accepted in `IDLE` leaves no program, or launches a whole one (R103). -/
theorem State.HostInv.accept {s t : State} {r : Request} (h : s.HostInv) (hi : s.ctl = .idle)
    (he : exec (decodeRequest r) s = .next t) : t.HostInv := by
  have hrest := h.atRest (by simp [hi])
  cases exec_request_cases he with
  | memory m result =>
    subst result
    exact ⟨h.driven, fun _ => hrest, fun hb => nomatch hi.symm.trans hb⟩
  | fault c result =>
    subst result
    exact ⟨h.driven, fun _ => hrest, nofun⟩
  | launchInit result =>
    subst result
    exact ⟨h.driven, fun hn => absurd rfl hn,
      fun _ => ⟨initProg_ne_nil _, 0, .inl ⟨rfl, rfl⟩⟩⟩
  | launchRefresh result =>
    subst result
    exact ⟨h.driven, fun hn => absurd rfl hn,
      fun _ => ⟨refreshProg_ne_nil _ _ _, 0, .inr ⟨rfl, rfl⟩⟩⟩

/-- An edge of a program leaves its rest, one edge further on, or none; neither the memory nor the
build it was made from changes (R104, R205). -/
theorem State.HostInv.runEdge {s : State} (h : s.HostInv) (hb : s.ctl = .busy) (p : Pins) :
    ({ s with pins := p }.advanceTo (afterEdge s.prog)).HostInv := by
  by_cases hl : afterEdge s.prog = []
  · rw [hl]
    exact ⟨h.driven, fun _ => ⟨rfl, rfl⟩, nofun⟩
  · obtain ⟨-, n, hprog⟩ := h.running hb
    have edge {l : List MicroOp} (hp : s.prog = afterEdges n l) :
        afterEdge s.prog = afterEdges (n + 1) l := by rw [hp, afterEdge_afterEdges]
    rw [State.advanceTo_of_ne_nil _ hl]
    refine ⟨h.driven, fun hn => absurd hb hn, fun _ => ⟨hl, n + 1, ?_⟩⟩
    exact hprog.imp (And.imp_right edge) (And.imp_right edge)

/-- Settles O49, by the cases of a step; a host's edge samples the ports, never a wire word. -/
theorem stepKeepsHostInvariant : Obligations.StepKeepsHostInvariant := by
  intro s t h hstep
  obtain ⟨q, l, hsample, hl⟩ := State.sample_host h.driven
  have inputsLeft {p rest} (hs : s.sample = (.ports p, rest)) :
      rest.all Stimulus.ofHost = true := by
    cases hsample.symm.trans hs
    exact hl
  cases step_cases hstep with
  | reset p rest sampled _ result => rw [result]; exact State.hostInv_resetOf _ (inputsLeft sampled)
  | accept p rest sampled _ idle _ result =>
    exact (h.withInputs (inputsLeft sampled)).accept idle result
  | idle p rest sampled _ _ _ result => rw [result]; exact h.withInputs (inputsLeft sampled)
  | run p rest sampled _ busy _ result =>
    rw [result]
    exact (h.withInputs (inputsLeft sampled)).runEdge busy _
  | faulted p rest sampled _ _ result => rw [result]; exact h.withInputs (inputsLeft sampled)
  | wire w rest i sampled => cases hsample.symm.trans sampled

end Sys2Proof.Machine
end

section
/-! The command words (43_command_protocol.md): how a word is made of its code, its transaction on the
wires, and the instructions that send it. -/

namespace Sys2Proof.Machine

/-! ## Code and word (R160, R176) -/

theorem rev_append {m n : Nat} (a : BitVec m) (b : BitVec n) :
    rev (a ++ b) = (rev b ++ rev a).cast (Nat.add_comm n m) := BitVec.reverse_append

/-- A command word is its reversed datasheet code over the prefix `P_CMD`. -/
theorem commandCode_eq_append (pCmd : BitVec 3) (c : DatasheetCode) :
    commandCode pCmd c = rev c ++ pCmd := by
  rw [BitVec.append_def, BitVec.shiftLeftZeroExtend_eq, BitVec.setWidth'_eq]
  rfl

/-- Settles O10: reversing a word swaps its two parts and reverses each. -/
theorem commandWordRoundTrip : Obligations.CommandWordRoundTrip := by
  intro cfg c hprefix
  rw [commandWord, commandCode_eq_append, hprefix]
  constructor
  · rw [rev_append, rev_rev]
    rfl
  · rw [BitVec.extractLsb'_append_eq_left, rev_rev]

/-! ## The bits of a word (R160) -/

/-- The bits of two parts go out low part first. -/
theorem wireBits_append {m n : Nat} (a : BitVec m) (b : BitVec n) :
    wireBits (a ++ b) (n + m) = wireBits b n ++ wireBits a m := by
  rw [wireBits, List.range_add, List.map_append, List.map_map]
  refine congrArg₂ _ (List.map_congr_left fun i hi => ?_) (List.map_congr_left fun i _ => ?_)
  · rw [BitVec.getLsbD_append, if_pos (List.mem_range.mp hi)]
  · simp [BitVec.getLsbD_append]

/-- A reversed word goes out most significant bit first. -/
theorem wireBits_rev {n : Nat} (v : BitVec n) : wireBits (rev v) n = (wireBits v n).reverse := by
  refine List.ext_getElem (by simp) fun i hi _ => ?_
  rw [wireBits_length] at hi
  simp [wireBits, getLsbD_rev v hi]

/-- R160: the prefix 1, 0, 0, then the datasheet code from bit 8 to bit 0. -/
theorem wireBits_commandCode (c : DatasheetCode) :
    wireBits (commandCode 0b001 c) 12 = [true, false, false] ++ (wireBits c 9).reverse := by
  rw [commandCode_eq_append, ← wireBits_rev]
  exact wireBits_append (rev c) 0b001#3

/-- A receiver tells a command by its prefix (R80). -/
theorem classOfBits_commandCode (c : DatasheetCode) :
    classOfBits (wireBits (commandCode 0b001 c) 12) = some .command := by
  rw [wireBits_commandCode]
  rfl

/-! ## `SendCmd` on the wires (R162) -/

@[simp] theorem progEdges_tx (d : Nat) (v : TxValue) (n : Nat) :
    progEdges (tx d v n) = n * (3 + 2 * d) := by
  induction n with
  | zero => simp
  | succ n ih => rw [tx_succ, progEdges_append, ih, progEdges_txBit, Nat.succ_mul n]

@[simp] theorem progEdges_sendCmd (d : Nat) (code : BitVec 12) :
    progEdges (sendCmd d code) = 38 + 26 * d := by
  simp only [sendCmd, bracket, progEdges_append, progEdges_beginOps, progEdges_endOps,
    progEdges_tx]
  omega

/-- What the monitor makes of a `SendCmd` from lines at rest: one complete transaction more, of the
bits of the code (R142, R162). -/
theorem monitor_sendCmd (m : Monitor) (d : Nat) (code : BitVec 12) (hc : m.current = none)
    (hr : m.last.atRest = true) :
    (programCycles m.last (sendCmd d code)).foldl Monitor.see m =
      { m with
        last := ⟨true, true, code.getLsbD 11⟩
        closed := m.closed ++ [⟨wireBits code 12, false⟩] } := by
  obtain ⟨h0, hw⟩ : m.last.csN = true ∧ m.last.wr = true := by
    simpa only [Pins.atRest, Bool.and_eq_true] using hr
  -- `Begin`, the twelve bits, `End`: the monitor after each
  rw [sendCmd, bracket, programCycles_append, programCycles_append, monitor_fold_append,
    monitor_fold_append, monitor_beginOps m d hc h0 hw, finalPins_append, finalPins_beginOps]
  rw [monitor_tx { m with last := ⟨false, true, m.last.data⟩, current := some [] } d _ 12 rfl rfl,
    finalPins_tx_succ]
  rw [monitor_endOps { m with last := ⟨false, true, _⟩, current := some _ } d rfl rfl,
    List.nil_append, wireBits_setWidth code 16 12 (by decide)]
  simp [hc]

/-- Settles O15: the length by the lengths of the parts, the report by what the monitor makes of each,
and the receiver by the prefix of the bits. -/
theorem sendCmdIsOneTransaction : Obligations.SendCmdIsOneTransaction := by
  refine fun d code => ⟨progEdges_sendCmd d code, fun p hp => ?_, fun c => ⟨?_, fun cut => ⟨?_, ?_⟩⟩⟩
  · exact monitor_sendCmd (Monitor.start p) d code rfl hp
  · exact wireBits_commandCode c
  · exact classOfBits_commandCode c
  · exact wordsOfBits_command _ (classOfBits_commandCode c)

/-! ## The commands without operands (R163 to R171, R174) -/

/-- Settles O8: the default table of codes and the prefix 001 evaluated on the nine commands. -/
theorem commandTable : Obligations.CommandTable := by
  intro f
  have hcodes : (defaultConfig f).cmdCode = defaultCodes := rfl
  have hprefix : (defaultConfig f).pCmd = 0b001 := rfl
  simp only [commandWord, hcodes, hprefix]
  decide

/-- The word of a command depends on the prefix and the table of codes alone (R160). -/
theorem commandWord_congr {cfg cfg' : Config} (hp : cfg.pCmd = cfg'.pCmd)
    (hc : cfg.cmdCode = cfg'.cmdCode) (c : Command) : commandWord cfg c = commandWord cfg' c := by
  rw [commandWord, commandWord, hp, hc]

/-- Settles O39: each of the nine rows sends its command, and with the default codes and prefix the
words are those of the default build. -/
theorem fixedCommandsAreSent : Obligations.FixedCommandsAreSent := by
  intro s
  have sent (c : Command) := exec_commandInstr c s
  refine ⟨⟨sent .normalMode, sent .testMode, sent .oscOn, sent .oscRc, sent .oscXtal, sent .oscExt,
    sent .biasOn, sent .biasOff, sent .wdtClear⟩, fun hp hc => ?_⟩
  have table := commandTable 1
  simp only [← commandWord_congr (cfg' := defaultConfig 1) hp hc, List.map_cons, List.map_nil,
    List.cons.injEq, Prod.mk.injEq] at table
  obtain ⟨⟨-, h1⟩, ⟨-, h2⟩, ⟨-, h3⟩, ⟨-, h4⟩, ⟨-, h5⟩, ⟨-, h6⟩, ⟨-, h7⟩, ⟨-, h8⟩, ⟨-, h9⟩, -⟩ := table
  exact ⟨h1, h2, h3, h4, h5, h6, h7, h8, h9⟩

/-! ## The commands with operands (R172, R173) -/

/-- Settles O40: the two rows send their command, whatever the operands. -/
theorem operandCommandsAreSent : Obligations.OperandCommandsAreSent := fun s =>
  ⟨fun sel c => exec_commandInstr (.biasCom sel c) s,
    fun t => exec_commandInstr (.wdtTimebase t) s⟩

end Sys2Proof.Machine
end

section
/-! The display memory and its refresh (44_display_refresh.md): what a refresh sends, what the requests
and the two words do, and a REFRESH followed to its end. -/

namespace Sys2Proof.Machine

/-! ## The words and bits of a refresh (R52, R53) -/

/-- R52: the byte at the lower position is the low half of the word. -/
theorem State.word_of_little {s : State} (h : s.cfg.wordOrder = .little) :
    s.word 0 = s.byteAt 1 ++ s.byteAt 0 ∧ s.word 1 = s.byteAt 3 ++ s.byteAt 2 := by
  simp only [State.word, h]
  exact ⟨rfl, rfl⟩

/-- A big-endian build exchanges the bytes of each pair (log 20). -/
theorem State.word_of_big {s : State} (h : s.cfg.wordOrder = .big) :
    s.word 0 = s.byteAt 0 ++ s.byteAt 1 ∧ s.word 1 = s.byteAt 2 ++ s.byteAt 3 := by
  simp only [State.word, h]
  exact ⟨rfl, rfl⟩

/-- The bit sent last is the top bit of the byte sent last. -/
theorem State.getLsbD_word_last (s : State) :
    (s.word 1).getLsbD 15 = (Memory.read s.mem (sentByte s.cfg.wordOrder 3)).getLsbD 7 := by
  rw [State.word, refreshWord, BitVec.getLsbD_append, if_neg (by decide)]

/-- The 32 data bits are the bits of the two words, one after the other. -/
theorem refreshBits_eq (s : State) :
    refreshBits s = wireBits s.cfg.wr0 9 ++ (wireBits (s.word 0) 16 ++ wireBits (s.word 1) 16) := by
  rw [refreshBits, State.word, State.word, wireBits_refreshWord, wireBits_refreshWord,
    show 32 = 16 + 16 from rfl, List.range_add, List.map_append, List.map_map]
  refine congrArg _ (congrArg₂ _ (List.map_congr_left fun j _ => ?_)
    (List.map_congr_left fun j _ => ?_))
  · rw [Nat.mul_zero, Nat.zero_add]
  · simp only [Function.comp_apply]
    rw [show (16 + j) / 8 = 2 * 1 + j / 8 by omega, show (16 + j) % 8 = j % 8 by omega]

/-! ## What a receiver makes of a refresh (R80) -/

/-- A word that starts 1, 0, 1 tells a write transaction. -/
theorem classOfBits_write {w : BitVec 9} (h : w.extractLsb' 0 3 = 0b101) :
    classOfBits (wireBits w 9) = some .write := by
  have bit (i : Nat) (hi : i < 3) : w.getLsbD i = (0b101#3).getLsbD i := by
    rw [show 0b101#3 = w.extractLsb' 0 3 from h.symm, BitVec.getLsbD_extractLsb',
      decide_eq_true hi, Bool.true_and, Nat.zero_add]
  simp only [wireBits, List.range, List.range.loop, List.map_cons, bit 0 (by decide),
    bit 1 (by decide), bit 2 (by decide)]
  rfl

/-- The receiver reads the write word and the two data words. -/
theorem refreshBits_received {s : State} (h : s.cfg.wr0.extractLsb' 0 3 = 0b101) :
    classOfBits (refreshBits s) = some .write ∧
    wordsOfBits (refreshBits s) =
      some [.wire9 s.cfg.wr0, .wire16 (s.word 0), .wire16 (s.word 1)] := by
  have hclass := classOfBits_write h
  have hdata : dataWords 2 (wireBits (s.word 0) 16 ++ wireBits (s.word 1) 16) =
      [.wire16 (s.word 0), .wire16 (s.word 1)] := by
    rw [dataWords_succ, ← List.append_nil (wireBits (s.word 1) 16), dataWords_succ, dataWords]
  rw [refreshBits_eq, classOfBits_append, wordsOfBits_write _ _ hclass (by simp)]
  simp [hclass, hdata]

/-! ## The requests (R201 to R203) -/

/-- Settles O32: the write of one byte. -/
theorem setmemWritesItsByte : Obligations.SetmemWritesItsByte := by
  intro p v s
  refine ⟨by simp [decodeRequest], s.writeByte p v, rfl, ?_, fun a ha => ?_, rfl⟩
  · rw [State.byteAt_writeByte, if_pos rfl]
  · exact Memory.read_write_ne s.mem v ha

theorem exec_refresh_of_configured {s : State} (h : s.istate = .chipConfigured) :
    exec .refresh s = .next (s.launch .refresh (refreshProg s.cfg (s.word 0) (s.word 1))) :=
  if_neg (not_not.mpr h)

theorem exec_refresh_of_not_configured {s : State} (h : s.istate ≠ .chipConfigured) :
    exec .refresh s = .next (s.raiseFault .notInitialized) := if_pos h

/-- Settles O36: the launch, with the two words written out in either byte order. -/
theorem refreshLaunchesItsTransaction : Obligations.RefreshLaunchesItsTransaction := by
  intro s hi
  refine ⟨fun ho => ?_, fun ho => ?_, fun _ => rfl⟩
  · obtain ⟨h0, h1⟩ := State.word_of_little ho
    rw [exec_refresh_of_configured hi, h0, h1]
    rfl
  · obtain ⟨h0, h1⟩ := State.word_of_big ho
    rw [exec_refresh_of_configured hi, h0, h1]
    rfl

/-- Settles O37: the fault entry of R262. -/
theorem refreshBeforeInitFaults : Obligations.RefreshBeforeInitFaults :=
  fun _ hi => ⟨exec_refresh_of_not_configured hi, rfl⟩

/-! ## The two words (R203, R204, R79) -/

theorem State.sendWord_of_open {s : State} (h : s.transactionOpen = true) (v : TxValue) (n : Nat) :
    s.sendWord v n = s.emit (tx (delayCycles s.cfg) v n) := by
  rw [State.sendWord, if_pos h]

theorem State.sendWord_of_closed {s : State} (h : s.transactionOpen = false) (v : TxValue)
    (n : Nat) :
    s.sendWord v n = s.emit (bracket (delayCycles s.cfg) (tx (delayCycles s.cfg) v n)) := by
  rw [State.sendWord, if_neg (Bool.eq_false_iff.mp h)]

/-- Settles O41: each word is a `sendWord`, inside an open transaction or in a bracket. -/
theorem refreshWordsAreSent : Obligations.RefreshWordsAreSent := by
  refine fun s w => ⟨fun h => ?_, fun h => ?_⟩
  · have sent := State.sendWord_of_open (s := s) (by rw [State.transactionOpen, h]; rfl)
    exact ⟨congrArg _ (sent _ 9), congrArg _ (sent w 16)⟩
  · have sent := State.sendWord_of_closed (s := s) (by rw [State.transactionOpen, h]; rfl)
    exact ⟨congrArg _ (sent _ 9), congrArg _ (sent w 16)⟩

/-! ## A REFRESH is its three words (R203) -/

/-- A `Tx` leaves an open transaction open. -/
theorem State.transactionOpen_emit_tx (s : State) (d : Nat) (v : TxValue) (n : Nat) :
    (s.emit (tx d v n)).transactionOpen = s.transactionOpen := by
  simp only [State.transactionOpen, State.emit_pins, State.emit_prog, finalPins_append,
    finalPins_tx_csN]

theorem execSeq_cons {i : Instr} {s t : State} (h : exec i s = .next t) (is : List Instr) :
    execSeq (i :: is) s = execSeq is t := by
  rw [execSeq, h]

/-- Inside an open transaction the three words of a refresh are their `Tx`, one after the other. -/
theorem execSeq_refreshWords {s : State} (h : s.transactionOpen = true) (w0 w1 : BitVec 16) :
    execSeq [.writeAddr0, .data16 w0, .data16 w1] s =
      .next (((s.emit (tx (delayCycles s.cfg) (s.cfg.wr0.setWidth 16) 9)).emit
        (tx (delayCycles s.cfg) w0 16)).emit (tx (delayCycles s.cfg) w1 16)) := by
  rw [execSeq_cons rfl, State.sendWord_of_open h, execSeq_cons rfl,
    State.sendWord_of_open (by rwa [State.transactionOpen_emit_tx]), execSeq_cons rfl,
    State.sendWord_of_open (by rwa [State.transactionOpen_emit_tx, State.transactionOpen_emit_tx])]
  rfl

/-- Settles O43: after a `Begin` the three words are the body of the transaction, and the receiver
reads them back. -/
theorem refreshIsItsThreeWords : Obligations.RefreshIsItsThreeWords := by
  intro s hi
  refine ⟨_, execSeq_refreshWords rfl _ _, ?_, fun h _ => refreshBits_received h⟩
  rw [exec_refresh_of_configured hi]
  simp [State.launch, State.emit, refreshProg, bracket]

/-! ## The transaction on the wires (R203, R300) -/

@[simp] theorem progEdges_refreshProg (c : Config) (w0 w1 : TxValue) :
    progEdges (refreshProg c w0 w1) = 125 + 84 * delayCycles c := by
  simp only [refreshProg, bracket, progEdges_append, progEdges_beginOps, progEdges_endOps,
    progEdges_tx]
  omega

/-- A REFRESH leaves the lines at rest and the last bit of its last word on `data` (R121, R128). -/
@[simp] theorem finalPins_refreshProg (p : Pins) (c : Config) (w0 w1 : TxValue) :
    finalPins p (refreshProg c w0 w1) = ⟨true, true, w1.getLsbD 15⟩ := by
  simp [refreshProg, bracket, finalPins_append]

/-- What the monitor makes of a REFRESH from lines at rest: one complete transaction more, of the bits
of its three words (R142, R203). -/
theorem monitor_refreshProg (m : Monitor) (c : Config) (w0 w1 : TxValue) (hc : m.current = none)
    (hr : m.last.atRest = true) :
    (programCycles m.last (refreshProg c w0 w1)).foldl Monitor.see m =
      { m with
        last := ⟨true, true, w1.getLsbD 15⟩
        closed := m.closed ++
          [⟨wireBits c.wr0 9 ++ (wireBits w0 16 ++ wireBits w1 16), false⟩] } := by
  obtain ⟨h0, hw⟩ : m.last.csN = true ∧ m.last.wr = true := by
    simpa only [Pins.atRest, Bool.and_eq_true] using hr
  -- `Begin`, the three words, `End`: the monitor after each
  simp only [refreshProg, bracket, programCycles_append, monitor_fold_append, finalPins_append]
  rw [monitor_beginOps m _ hc h0 hw, finalPins_beginOps,
    monitor_tx { m with last := ⟨false, true, m.last.data⟩, current := some [] } _ _ 9 rfl rfl,
    finalPins_tx_succ,
    monitor_tx { m with last := ⟨false, true, _⟩, current := some _ } _ w0 16 rfl rfl,
    finalPins_tx_succ,
    monitor_tx { m with last := ⟨false, true, _⟩, current := some _ } _ w1 16 rfl rfl,
    finalPins_tx_succ,
    monitor_endOps { m with last := ⟨false, true, _⟩, current := some _ } _ rfl rfl,
    wireBits_setWidth c.wr0 16 9 (by decide)]
  simp [hc]

/-! ## A request that launches a bus program, followed to its end (R103, R110) -/

section Launch
variable {s : State} {rest : List Stimulus} {o : CurOp} {l : List MicroOp}
  (hstep : step s = .next (({ s with inputs := rest } : State).launch o l))
  (hreset : s.resetNext = false) (hne : l ≠ []) (hd : delaysOk (delayCycles s.cfg) l = true)
  (hrest : ({ s with inputs := rest } : State).requestsOnly = true)
include hstep hne hd hrest

/-- After the accepting edge and the program's own, the request is complete. -/
theorem run_of_launch :
    core.run (1 + progEdges l) s =
      .next (({ s with inputs := rest, pins := finalPins s.pins l } : State).launch o l).complete := by
  have h : (({ s with inputs := rest } : State).launch o l).Undisturbed := ⟨rfl, hne, hd, hrest⟩
  rw [Nat.add_comm, run_succ hstep]
  exact h.run_progEdges

include hreset in
/-- The pins hold at the accepting edge, and then move as the program says. -/
theorem trace_of_launch :
    trace (1 + progEdges l) s = ⟨s.pins, false⟩ :: programCycles s.pins l := by
  have h : (({ s with inputs := rest } : State).launch o l).Undisturbed := ⟨rfl, hne, hd, hrest⟩
  rw [Nat.add_comm, trace_succ hstep, hreset]
  exact congrArg _ h.trace_progEdges

include hreset in
/-- From lines at rest the accepting edge adds nothing to the monitor's report. -/
theorem monitor_of_launch (hp : s.pins.atRest = true) :
    monitor s.pins (trace (1 + progEdges l) s) = monitor s.pins (programCycles s.pins l) := by
  obtain ⟨h0, -⟩ : s.pins.csN = true ∧ s.pins.wr = true := by
    simpa only [Pins.atRest, Bool.and_eq_true] using hp
  have hold : (Monitor.start s.pins).see ⟨s.pins, false⟩ = Monitor.start s.pins :=
    Monitor.see_hold _ rfl (by simp [Monitor.start, h0])
  rw [trace_of_launch hstep hreset hne hd hrest, monitor, List.foldl_cons, hold, monitor]

end Launch

/-- Once the chip is configured, a REFRESH presented in `IDLE` is launched at the next edge. -/
theorem step_refresh {s : State} {r : Request} {rest : List Stimulus} (hi : s.ctl = .idle)
    (hconf : s.istate = .chipConfigured) (hin : s.inputs = .present r :: rest)
    (hop : r.op = 0b101) :
    step s = .next (({ s with inputs := rest } : State).launch .refresh
      (refreshProg s.cfg (s.word 0) (s.word 1))) := by
  have hdecode : decodeRequest r = .refresh := by simp [decodeRequest, hop]
  rw [(step_present hi hin).1, hdecode]
  exact exec_refresh_of_configured hconf

/-- Settles O46: the request launches the program, which runs to its end as one transaction. -/
theorem refreshRunsItsTransaction : Obligations.RefreshRunsItsTransaction := by
  intro s r rest hi hconf hp hin hop hreq
  have hstep := step_refresh hi hconf hin hop
  have hreset := (step_present hi hin).2
  have hne := refreshProg_ne_nil s.cfg (s.word 0) (s.word 1)
  have hd := delaysOk_refreshProg s.cfg (s.word 0) (s.word 1)
  have hrun := run_of_launch hstep hne hd hreq
  have hmon := monitor_of_launch hstep hreset hne hd hreq hp
  have hreport := monitor_refreshProg (Monitor.start s.pins) s.cfg (s.word 0) (s.word 1) rfl hp
  rw [progEdges_refreshProg] at hrun hmon
  rw [finalPins_refreshProg, s.getLsbD_word_last] at hrun
  rw [s.getLsbD_word_last, ← refreshBits_eq] at hreport
  refine ⟨hrun, hmon.trans hreport, fun ho => ?_⟩
  simp only [refreshBits, ho, sentByte_little]

end Sys2Proof.Machine
end

section
/-! The glyph lookup (45_glyph.md): the bits a glyph sets, the table of the default build, and the two
requests that write glyphs. -/

namespace Sys2Proof.Machine

/-! ## The wiring and the digit shapes (R222 to R224) -/

/-- The segments, in the order of `SegBits.positions`. -/
def allSegments : List Segment := [.a, .b, .c, .d, .e, .f, .g, .dp]

theorem mem_allSegments (s : Segment) : s ∈ allSegments := by
  cases s <;> decide

theorem positions_eq_map_segmentBit (b : SegBits) :
    b.positions = allSegments.map (segmentBit b) := rfl

/-- One bit per segment: two segments on one bit are the same segment. -/
theorem segmentBit_injective {b : SegBits} (h : b.wf = true) :
    Function.Injective (segmentBit b) := by
  have hnodup : (allSegments.map (segmentBit b)).Nodup := by
    rw [← positions_eq_map_segmentBit]
    exact of_decide_eq_true h
  exact fun s t hst =>
    List.inj_on_of_nodup_map hnodup (mem_allSegments s) (mem_allSegments t) hst

theorem Segment.rotated_rotated (s : Segment) : Segment.rotated (Segment.rotated s) = s := by
  cases s <;> rfl

theorem panelSegment_injective (o : Orientation) : Function.Injective (panelSegment o) :=
  match o with
  | .normal => Function.injective_id
  | .rotated180 => Function.LeftInverse.injective Segment.rotated_rotated

/-- R224: the decimal point stays where it is in either orientation. -/
@[simp] theorem panelSegment_dp (o : Orientation) : panelSegment o .dp = .dp := by
  cases o <;> rfl

/-- The bit of the panel's segment that shows the viewer's segment `s`. -/
def panelBit (o : Orientation) (b : SegBits) (s : Segment) : Fin 8 :=
  segmentBit b (panelSegment o s)

theorem panelBit_injective (o : Orientation) {b : SegBits} (hb : b.wf = true) :
    Function.Injective (panelBit o b) :=
  (segmentBit_injective hb).comp (panelSegment_injective o)

@[simp] theorem panelBit_dp (o : Orientation) (b : SegBits) : panelBit o b .dp = b.dp := by
  rw [panelBit, panelSegment_dp, segmentBit]

/-- A digit's segments are among a to g, each at most once (R222). -/
theorem litSegments_sublist (d : SegmentSet) :
    (litSegments d).Sublist [.a, .b, .c, .d, .e, .f, .g] := by
  have lit (x : Bool) (s : Segment) : (if x then [s] else []).Sublist [s] := by
    cases x <;> simp
  exact ((((((lit d.a .a).append (lit d.b .b)).append (lit d.c .c)).append (lit d.d .d)).append
    (lit d.e .e)).append (lit d.f .f)).append (lit d.g .g)

theorem nodup_litSegments (d : SegmentSet) : (litSegments d).Nodup :=
  (litSegments_sublist d).nodup (by decide)

theorem dp_notMem_litSegments (d : SegmentSet) : Segment.dp ∉ litSegments d :=
  fun h => absurd ((litSegments_sublist d).subset h) (by decide)

/-! ## The bits of a pattern (R223) -/

/-- A sum of distinct powers of two has exactly the bits of its exponents. -/
theorem testBit_sum_map_two_pow {l : List Nat} (hl : l.Nodup) (k : Nat) :
    (l.map (2 ^ ·)).sum.testBit k = true ↔ k ∈ l := by
  rw [← List.sum_toFinset _ hl, ← Nat.mem_bitIndices, ← List.mem_toFinset,
    Finset.toFinset_bitIndices_sum_two_pow, List.mem_toFinset]

theorem segmentPattern_eq_sum (o : Orientation) (b : SegBits) (d : SegmentSet) :
    segmentPattern o b d =
      BitVec.ofNat 8 (((litSegments d).map fun s => (panelBit o b s).val).map (2 ^ ·)).sum := by
  rw [List.map_map]
  rfl

/-- A pattern has exactly the bits of the panel's segments that show a lit one. -/
theorem getLsbD_segmentPattern (o : Orientation) {b : SegBits} (hb : b.wf = true)
    (d : SegmentSet) (k : Fin 8) :
    (segmentPattern o b d).getLsbD k = true ↔ ∃ s ∈ litSegments d, panelBit o b s = k := by
  have hnodup : ((litSegments d).map fun s => (panelBit o b s).val).Nodup :=
    (nodup_litSegments d).map (Fin.val_injective.comp (panelBit_injective o hb))
  rw [segmentPattern_eq_sum, BitVec.getLsbD_ofNat, decide_eq_true k.isLt, Bool.true_and,
    testBit_sum_map_two_pow hnodup, List.mem_map]
  simp only [Fin.ext_iff]

/-! ## The lookup (R221) -/

theorem glyph_of_some {c : Config} {d : Byte} {segs : SegmentSet}
    (h : c.digitSegs[d.toNat]? = some segs) :
    glyph c d = segmentPattern c.orientation c.segBit segs := by
  rw [glyph, h]

theorem glyph_of_none {c : Config} {d : Byte} (h : c.digitSegs[d.toNat]? = none) :
    glyph c d = 0 := by
  rw [glyph, h]

/-- R221: a glyph is blank outside 0 to 9. -/
theorem glyph_of_gt (c : Config) {d : Byte} (h : 9 < d.toNat) : glyph c d = 0 :=
  glyph_of_none (Vector.getElem?_eq_none h)

/-- Settles O21: the bits of a digit's pattern, of which the decimal point's is none, and the blank
outside the table. -/
theorem glyphLightsExactlyItsSegments : Obligations.GlyphLightsExactlyItsSegments := by
  intro c d hwf
  have hbits (k : Fin 8) : (glyph c d).getLsbD k = true ↔
      ∃ segs, c.digitSegs[d.toNat]? = some segs ∧
        ∃ s ∈ litSegments segs, panelBit c.orientation c.segBit s = k := by
    cases h : c.digitSegs[d.toNat]? with
    | none => simp [glyph_of_none h]
    | some segs =>
      rw [glyph_of_some h, getLsbD_segmentPattern c.orientation hwf]
      simp
  refine ⟨hbits, ?_, glyph_of_gt c⟩
  rw [Bool.eq_false_iff, Ne, hbits]
  rintro ⟨segs, -, s, hs, hdp⟩
  rw [← panelBit_dp c.orientation c.segBit] at hdp
  exact dp_notMem_litSegments segs (panelBit_injective c.orientation hwf hdp ▸ hs)

/-- Ten patterns in a table, one for each digit, give the glyph of every operand. -/
theorem glyph_eq_getD {c : Config} {table : List Byte} (hlen : table.length = 10)
    (h : ∀ i : Fin 10, segmentPattern c.orientation c.segBit c.digitSegs[i] = table.getD i 0)
    (d : Byte) : glyph c d = table.getD d.toNat 0 := by
  by_cases hd : d.toNat < 10
  · rw [glyph_of_some (Vector.getElem?_eq_getElem hd)]
    exact h ⟨d.toNat, hd⟩
  · rw [glyph_of_gt c (by omega), List.getD_eq_default _ _ (by omega)]

/-- Settles O20: the ten patterns of each orientation. -/
theorem glyphTable : Obligations.GlyphTable := by
  intro c d hbits hsegs
  refine ⟨fun ho => glyph_eq_getD rfl ?_ d, fun ho => glyph_eq_getD rfl ?_ d⟩
  all_goals
    rw [ho, hbits, hsegs]
    decide

/-! ## The requests (R226, R227) -/

/-- Settles O33: the write of one byte, which is the digit's glyph. -/
theorem wrdigWritesItsGlyph : Obligations.WrdigWritesItsGlyph := by
  intro p d s
  refine ⟨by simp [decodeRequest], s.writeByte p (s.digitPattern d), rfl, ?_, fun a ha => ?_, rfl⟩
  · rw [State.byteAt_writeByte, if_pos rfl, State.digitPattern]
  · exact Memory.read_write_ne s.mem _ ha

theorem State.byteAt_writeAll (s : State) (v : Byte) (q : Position) :
    (s.writeAll v).byteAt q = v := by
  have hq : q = 0 ∨ q = 1 ∨ q = 2 ∨ q = 3 := by decide +revert
  simp only [State.writeAll, State.byteAt_writeByte]
  obtain rfl | rfl | rfl | rfl := hq <;> simp

theorem State.read_writeAll_of_le (s : State) (v : Byte) {a : Nat} (h : memBytes ≤ a) :
    Memory.read (s.writeAll v).mem a = Memory.read s.mem a := by
  have other (m : List Host.Cell) (p : Position) :
      Memory.read (Memory.write m p.toNat v) a = Memory.read m a :=
    Memory.read_write_ne m v (Nat.ne_of_gt (lt_of_lt_of_le (position_lt_memBytes p) h))
  simp only [State.writeAll, State.writeByte_mem, other]

/-- Settles O34: the write of the glyph at all four positions. -/
theorem wrdigsWritesFourGlyphs : Obligations.WrdigsWritesFourGlyphs := fun p d s =>
  ⟨by simp [decodeRequest], s.writeAll (s.digitPattern d), rfl, s.byteAt_writeAll _,
    fun _ ha => s.read_writeAll_of_le _ ha, rfl⟩

end Sys2Proof.Machine
end

section
/-! The initialization (46_initialization.md): what INIT launches, the six commands it is made of,
and an INIT followed to its end. -/

namespace Sys2Proof.Machine

/-! ## The request (R242) -/

theorem exec_init_of_lines {s : State} (h : s.istate = .linesConfigured) :
    exec .init s = .next (s.launch .init (initProg s.cfg)) :=
  if_neg (IState.ne_chipConfigured.mpr h)

theorem exec_init_of_configured {s : State} (h : s.istate = .chipConfigured) :
    exec .init s = .next (s.raiseFault .reinit) := if_pos h

/-- Settles O35: the launch of `initProg`, the fault entry of R262, and the default list read
off. -/
theorem initLaunchesItsSequence : Obligations.InitLaunchesItsSequence :=
  ⟨fun _ => ⟨exec_init_of_lines, exec_init_of_configured⟩, fun _ => rfl⟩

/-! ## The gap between two commands (R246) -/

/-- Settles O18: the waveform of an `End`, and that of a `Begin` from the pins it leaves. -/
theorem gapBetweenTransactions : Obligations.GapBetweenTransactions := by
  intro p d
  rw [playPins_append, playPins_endOps, finalPins_endOps, playPins_beginOps, Nat.add_comm 1 d]

/-! ## Commands one after the other (R242, R162) -/

theorem State.emit_nil {s : State} (h : s.ctl = .busy) : s.emit [] = s := by
  rw [State.emit, List.append_nil, ← h]

theorem State.emit_emit (s : State) (a b : List MicroOp) :
    (s.emit a).emit b = s.emit (a ++ b) := by
  simp only [State.emit, List.append_assoc]

/-- The rows of a list of commands hand the sequencer the commands' programs, in order. -/
theorem execSeq_commands {s : State} (hb : s.ctl = .busy) (cs : List Command) :
    execSeq (cs.map commandInstr) s =
      .next (s.emit (cs.flatMap fun c => sendCmd (delayCycles s.cfg) (commandWord s.cfg c))) := by
  induction cs generalizing s with
  | nil => rw [List.flatMap_nil, State.emit_nil hb]; rfl
  | cons c cs ih =>
    rw [List.map_cons, execSeq_cons (exec_commandInstr c s), State.sendCommand, ih rfl,
      State.emit_emit]
    rfl

/-- Settles O42: from an empty program, the programs of the six commands are what an INIT
launches. -/
theorem initIsItsSixCommands : Obligations.InitIsItsSixCommands := by
  intro s hi
  rw [exec_init_of_lines hi, execSeq_commands rfl]
  rfl

/-- A list of commands takes the edges of one, for each of them (R162). -/
theorem progEdges_commands (d : Nat) (cfg : Config) (cs : List Command) :
    progEdges (cs.flatMap fun c => sendCmd d (commandWord cfg c)) = cs.length * (38 + 26 * d) := by
  induction cs with
  | nil => simp
  | cons c cs ih =>
    rw [List.flatMap_cons, progEdges_append, progEdges_sendCmd, ih, List.length_cons,
      Nat.succ_mul cs.length, Nat.add_comm]

/-- R300, R247: an INIT is six commands long. -/
@[simp] theorem progEdges_initProg (c : Config) :
    progEdges (initProg c) = 228 + 156 * delayCycles c := by
  rw [initProg, progEdges_commands, Vector.length_toList]
  omega

/-- What the monitor makes of a list of commands from lines at rest: one complete transaction more
for each, in order (R142, R162). -/
theorem monitor_commands (m : Monitor) (d : Nat) (cfg : Config) (cs : List Command)
    (hc : m.current = none) (hr : m.last.atRest = true) :
    (programCycles m.last (cs.flatMap fun c => sendCmd d (commandWord cfg c))).foldl
        Monitor.see m =
      { m with
        last := finalPins m.last (cs.flatMap fun c => sendCmd d (commandWord cfg c))
        closed := m.closed ++ cs.map fun c => ⟨wireBits (commandWord cfg c) 12, false⟩ } := by
  induction cs generalizing m with
  | nil => simp [finalPins]
  | cons c cs ih =>
    rw [List.flatMap_cons, programCycles_append, monitor_fold_append, monitor_sendCmd m d _ hc hr,
      finalPins_append, finalPins_sendCmd, List.map_cons, List.append_cons _ _ (cs.map _)]
    exact ih { m with last := ⟨true, true, _⟩, closed := _ } hc rfl

/-- What the monitor makes of an INIT from lines at rest (R242, R244). -/
theorem monitor_initProg (m : Monitor) (c : Config) (hc : m.current = none)
    (hr : m.last.atRest = true) :
    (programCycles m.last (initProg c)).foldl Monitor.see m =
      { m with
        last := ⟨true, true, (commandWord c c.initSeq[5]).getLsbD 11⟩
        closed := m.closed ++
          c.initSeq.toList.map fun k => ⟨wireBits (commandWord c k) 12, false⟩ } := by
  rw [← finalPins_initProg m.last c]
  exact monitor_commands m _ c c.initSeq.toList hc hr

/-! ## An INIT followed to its end (R243, R247) -/

/-- From the accepting edge of a launch to the edge before the completing one, the block is `BUSY`
and the initialization state is as it was (R104, R105). -/
theorem run_lt_of_launch {s : State} {rest : List Stimulus} {o : CurOp} {l : List MicroOp}
    (hstep : step s = .next (({ s with inputs := rest } : State).launch o l)) (hne : l ≠ [])
    (hd : delaysOk (delayCycles s.cfg) l = true)
    (hrest : ({ s with inputs := rest } : State).requestsOnly = true) {k : Nat} (h1 : 1 ≤ k)
    (hk : k < 1 + progEdges l) :
    ∃ t, core.run k s = .next t ∧ t.ctl = .busy ∧ t.istate = s.istate := by
  have h : (({ s with inputs := rest } : State).launch o l).Undisturbed := ⟨rfl, hne, hd, hrest⟩
  obtain ⟨j, rfl⟩ := Nat.exists_eq_add_of_le' h1
  have hj : j < progEdges l := by omega
  obtain ⟨t, hrun, hbusy, histate, -, -⟩ := h.run_lt_progEdges hj
  exact ⟨t, (run_succ hstep j).trans hrun, hbusy, histate⟩

/-- Before the chip is configured, an INIT presented in `IDLE` is launched at the next edge. -/
theorem step_init {s : State} {r : Request} {rest : List Stimulus} (hi : s.ctl = .idle)
    (hlines : s.istate = .linesConfigured) (hin : s.inputs = .present r :: rest)
    (hop : r.op = 0b001) :
    step s = .next (({ s with inputs := rest } : State).launch .init (initProg s.cfg)) := by
  have hdecode : decodeRequest r = .init := by simp [decodeRequest, hop]
  rw [(step_present hi hin).1, hdecode]
  exact exec_init_of_lines hlines

/-- Settles O45: the request launches the program, which runs to its end as six transactions, and
the initialization state changes only as it completes. -/
theorem initRunsItsSixTransactions : Obligations.InitRunsItsSixTransactions := by
  intro s r rest hi hlines hp hin hop hreq
  have hstep := step_init hi hlines hin hop
  have hreset := (step_present hi hin).2
  have hne := initProg_ne_nil s.cfg
  have hd := delaysOk_initProg s.cfg
  have hrun := run_of_launch hstep hne hd hreq
  have hmon := monitor_of_launch hstep hreset hne hd hreq hp
  have hreport := monitor_initProg (Monitor.start s.pins) s.cfg rfl hp
  rw [finalPins_initProg] at hrun
  rw [progEdges_initProg] at hrun hmon
  refine ⟨hrun, hmon.trans hreport, fun k h1 hk => ?_⟩
  rw [← progEdges_initProg] at hk
  obtain ⟨t, ht, hbusy, histate⟩ := run_lt_of_launch hstep hne hd hreq h1 hk
  exact ⟨t, ht, by simp [State.busy, hbusy], by simp [State.inited, histate, hlines]⟩

end Sys2Proof.Machine
end

section
/-! Faults (60_exceptions.md): the requests that raise one, and the reset edge that clears it. -/

namespace Sys2Proof.Machine

/-! ## The entry (R260, R261) -/

/-- The row of R261 for a cause: the request that raises it, and the state that it breaks the host
contract in. -/
def State.BreaksContract (s : State) (r : Request) (c : FaultCause) : Prop :=
  (c = .illegalOp ∧ (r.op = 0b000 ∨ r.op = 0b110 ∨ r.op = 0b111)) ∨
  (c = .notInitialized ∧ r.op = 0b101 ∧ s.istate = .linesConfigured) ∨
  (c = .reinit ∧ r.op = 0b001 ∧ s.istate = .chipConfigured)

/-- A request that enters a fault breaks the contract, by its opcode alone or in the present
initialization state, and does no more than the fault entry of R262. -/
theorem exec_decodeRequest_faulted {r : Request} {s t : State}
    (h : exec (decodeRequest r) s = .next t) (hs : s.ctl ≠ .faulted) (ht : t.ctl = .faulted) :
    ∃ c, t = s.raiseFault c ∧ s.BreaksContract r c := by
  rcases decodeRequest_cases r with ⟨hop, hd⟩ | ⟨hop, hd⟩ | ⟨-, hd⟩ | ⟨-, hd⟩ | ⟨-, hd⟩ |
    ⟨hop, hd⟩ | ⟨hop, hd⟩ | ⟨hop, hd⟩ <;> rw [hd] at h
  · cases h; exact ⟨_, rfl, .inl ⟨rfl, .inl hop⟩⟩
  · cases hi : s.istate with
    | linesConfigured => cases (exec_init_of_lines hi).symm.trans h; cases ht
    | chipConfigured =>
      cases (exec_init_of_configured hi).symm.trans h
      exact ⟨_, rfl, .inr (.inr ⟨rfl, hop, hi⟩)⟩
  · cases h; exact absurd ht hs
  · cases h; exact absurd ht hs
  · cases h; exact absurd ht hs
  · cases hi : s.istate with
    | linesConfigured =>
      cases (exec_refresh_of_not_configured (IState.ne_chipConfigured.mpr hi)).symm.trans h
      exact ⟨_, rfl, .inr (.inl ⟨rfl, hop, hi⟩)⟩
    | chipConfigured => cases (exec_refresh_of_configured hi).symm.trans h; cases ht
  · cases h; exact ⟨_, rfl, .inl ⟨rfl, .inr (.inl hop)⟩⟩
  · cases h; exact ⟨_, rfl, .inl ⟨rfl, .inr (.inr hop)⟩⟩

/-- A program's edge goes on in `BUSY` or ends in `IDLE` (R104, R105). -/
theorem State.advanceTo_ctl_ne_faulted {s : State} (h : s.ctl ≠ .faulted) (l : List MicroOp) :
    (s.advanceTo l).ctl ≠ .faulted := by
  by_cases hl : l = []
  · subst hl; exact nofun
  · rw [State.advanceTo_of_ne_nil s hl]; exact h

/-- Settles O55: of the cases of a step only an acceptance enters `FAULTED`; a wire word makes the
block `BUSY`. -/
theorem faultsOnlyFromContractViolations : Obligations.FaultsOnlyFromContractViolations := by
  intro s t hstep hs ht
  cases step_cases hstep with
  | reset _ _ _ _ result => subst result; cases ht
  | accept p rest sampled rst idle valid result =>
    obtain ⟨c, rfl, hbreach⟩ := exec_decodeRequest_faulted result hs ht
    exact ⟨idle, p.request, rest, State.accepts_of_ports sampled rst idle valid, rfl, hbreach⟩
  | idle _ _ _ _ _ _ result => subst result; exact absurd ht hs
  | run _ _ _ _ _ _ result =>
    subst result
    exact absurd ht (State.advanceTo_ctl_ne_faulted (by exact hs) _)
  | faulted _ _ _ _ faulted _ => exact absurd faulted hs
  | wire _ _ _ _ _ decoded result =>
    obtain ⟨l, rfl⟩ := exec_of_decodeWire decoded result
    cases ht

/-! ## The exit (R263) -/

/-- Settles O56: of the cases of a step only a reset and the fault that holds start in `FAULTED`. -/
theorem faultIsLeftOnlyByReset : Obligations.FaultIsLeftOnlyByReset := by
  refine fun s hf => ⟨by simp [State.endsWell, hf], fun t hstep => ?_⟩
  cases step_cases hstep with
  | reset p _ sampled rst result =>
    subst result
    exact .inl ⟨(State.resetNext_of_ports sampled).trans rst, rfl, rfl, rfl⟩
  | faulted p _ sampled rst _ result =>
    subst result
    exact .inr ⟨(State.resetNext_of_ports sampled).trans rst, hf, rfl, rfl⟩
  | accept _ _ _ _ idle | idle _ _ _ _ idle | run _ _ _ _ idle | wire _ _ _ _ idle =>
    cases hf.symm.trans idle

end Sys2Proof.Machine
end

section
/-! The reset edge as the host gives it (R290), and the lengths of the bus programs (R300). -/

namespace Sys2Proof.Machine

/-! ## The reset edge (R290) -/

/-- While `rst = 1`, nothing presented is accepted (R101, R290). -/
theorem State.reqReady_of_rst (s : State) {rst : Bool} (h : rst = true) :
    s.reqReady rst = false := by
  rw [h, State.reqReady, Bool.not_true, Bool.and_false]

/-- An edge whose ports carry `rst = 1` resets the block and takes that edge off the inputs. -/
theorem step_edge_of_rst {s : State} {p : Ports} {rest : List Stimulus}
    (hin : s.inputs = .edge p :: rest) (hr : p.rst = true) :
    step s = .next (State.resetOf s.cfg rest) := by
  rw [step_of_ports (State.sample_edge hin), portsEdge_rst _ hr]
  rfl

/-- Settles O22: the state of a reset edge is `State.resetOf`, whose fields are those of R35. -/
theorem resetEdge : Obligations.ResetEdge :=
  fun s _ _ hin hr => ⟨step_edge_of_rst hin hr, s.reqReady_of_rst hr⟩

/-! ## The lengths (R300) -/

/-- Settles O16: the length of each of the five programs. -/
theorem busProgramLengths : Obligations.BusProgramLengths :=
  fun cfg w0 w1 => ⟨progEdges_beginOps _, progEdges_endOps _, progEdges_tx _,
    progEdges_refreshProg cfg w0 w1, progEdges_initProg cfg⟩

end Sys2Proof.Machine
end
